-- ==== Sys2Proof/Word.lean ====
section
/-! DEFINITION. The machine's word (one 32-bit cell) and the byte of the program binary. -/

namespace Sys2Proof

/-- A cell, a register or an immediate: 32 bits, read signed through `BitVec.toInt` (R4 `XLEN`). -/
abbrev Word := BitVec 32

/-- A byte of the program binary or of the output sink (R4 `CELL_BYTES`, R150). -/
abbrev Byte := BitVec 8

end Sys2Proof
end

