-- ==== Sys2Proof/Config.lean ====
section
/-! DEFINITION. What is fixed before a run: the parameters of R4, the parameters `State.reset` is given, and the
environment's free answers (R150, U13). -/

namespace Sys2Proof

/-- `LOAD_BYTE_ORDER` (R4, R38). -/
inductive ByteOrder where
  | little
  | big
  deriving DecidableEq, Repr

/-- The parameters fixed at load (R4, R46). The model carries them in `State`, since `exec` has no other argument
(log entry 2, DESIGN CHOICE, safe: statements range over all of them). -/
structure Params where
  /-- `K`, the number of program cells. -/
  k : Nat
  /-- `CAP`, the stack capacity in cells. -/
  cap : Nat
  /-- `N`, the number of memory cells. -/
  n : Nat
  /-- `LOAD_BYTE_ORDER`. -/
  order : ByteOrder
  deriving DecidableEq, Repr

/-- The answers of the port `InDec()` (R150). -/
inductive DecAnswer where
  | int (v : Word)
  | parseFail
  | eof
  deriving DecidableEq, Repr, Inhabited

/-- The answers of the port `InByte()` (R150). -/
inductive ByteAnswer where
  | byte (b : Byte)
  | eof
  deriving DecidableEq, Repr, Inhabited

/-- The bound `2^31 - 3` on the number of cells (R4, D8). -/
def Config.maxCells : Nat := 2147483645

/-- Admissible parameters: `K + CAP <= N <= 2^31 - 3` (R4). -/
abbrev Params.admissible (p : Params) : Prop := p.k + p.cap ≤ p.n ∧ p.n ≤ Config.maxCells

/-- The stack capacity the command line uses where none is asked for: "default 256 cells" (R4). -/
def Config.defaultCap : Nat := 256

/-- The parameters of `State.reset`: no program, the default capacity and byte order, and 65536 cells
(log entry 3, DESIGN CHOICE, unsafe: R4 leaves `K` and `N` to the load). -/
def Config.resetParams : Params := ⟨0, Config.defaultCap, 65536, .little⟩

/-- FREE VALUE: the answer of the decimal source to its `i`-th request, where the state lists none (U13: "the
environment is an unconstrained oracle"; log entry 17, DESIGN CHOICE, safe for one run). -/
opaque Config.decAnswer : Nat → DecAnswer

/-- FREE VALUE: the answer of the byte source to its `i`-th request, where the state lists none (U13, log entry 17). -/
opaque Config.byteAnswer : Nat → ByteAnswer

end Sys2Proof
end

