-- ==== Sys2Proof/Syntax.lean ====
section
/-! DEFINITION. The instructions: one constructor per row of spec/opcode_table.json (R55). A register operand is kept
as the whole cell the program holds (R53: "Register id values used as operands are themselves *program data*"), since
the handler validates it when the instruction executes. -/

namespace Sys2Proof

/-- The four general registers (R11). -/
inductive Reg where
  | A
  | B
  | C
  | D
  deriving DecidableEq, Repr

/-- An instruction, in opcode order (R55). `r`, `r1`, `r2` are register-operand cells, `n` an immediate cell
(R51, R53, R54). `in` is Lean's own word, so its constructor is `in_`. -/
inductive Instr where
  /-- opcode 0, R90 -/
  | nop
  /-- opcode 1, R91 -/
  | halt
  /-- opcode 2, R101 -/
  | add (r : Word)
  /-- opcode 3, R102 -/
  | sub (r : Word)
  /-- opcode 4, R103 -/
  | mul (r : Word)
  /-- opcode 5, R104 -/
  | div (r : Word)
  /-- opcode 6, R105 -/
  | inc (r : Word)
  /-- opcode 7, R106 -/
  | dec (r : Word)
  /-- opcode 8, R92 -/
  | loop (n : Word)
  /-- opcode 9, R120 -/
  | movr (r n : Word)
  /-- opcode 10, R130 -/
  | load (r n : Word)
  /-- opcode 11, R131 -/
  | store (r n : Word)
  /-- opcode 12, R151 -/
  | in_ (r : Word)
  /-- opcode 13, R152 -/
  | get (r : Word)
  /-- opcode 14, R153 -/
  | out (r : Word)
  /-- opcode 15, R154 -/
  | put (r : Word)
  /-- opcode 16, R121 -/
  | swap (r1 r2 : Word)
  /-- opcode 17, R132 -/
  | push (r : Word)
  /-- opcode 18, R133 -/
  | pop (r : Word)
  deriving DecidableEq, Repr

/-- The register-operand cells of an instruction, in encoding order (R51). -/
def Instr.regCells : Instr → List Word
  | .nop => []
  | .halt => []
  | .add r => [r]
  | .sub r => [r]
  | .mul r => [r]
  | .div r => [r]
  | .inc r => [r]
  | .dec r => [r]
  | .loop _ => []
  | .movr r _ => [r]
  | .load r _ => [r]
  | .store r _ => [r]
  | .in_ r => [r]
  | .get r => [r]
  | .out r => [r]
  | .put r => [r]
  | .swap r1 r2 => [r1, r2]
  | .push r => [r]
  | .pop r => [r]

end Sys2Proof
end

