-- ==== Sys2Proof/WellFormed.lean ====
section
/-! DEFINITION. Well-formed instructions: every register operand is a register id (R53). An ill-formed instruction is
still an instruction: it executes and raises ILLEGAL_OPERAND (R73). -/

namespace Sys2Proof

/-- A register-operand cell is legal when its whole signed value is one of 0..3 (R53: "nothing is masked"). -/
def legalRegCell (c : Word) : Bool := decide (0 ≤ c.toInt ∧ c.toInt ≤ 3)

/-- Every register operand of the instruction is a register id; every `int32` is a legal immediate (R57). -/
def Instr.wellFormed (i : Instr) : Bool := i.regCells.all legalRegCell

end Sys2Proof
end

