-- ==== Sys2Proof/Decode.lean ====
section
/-! DEFINITION. Decoding cells into an instruction (R50 to R58), the encoder, register ids (R11), and the bytes of the
program binary as cells (R38). -/

namespace Sys2Proof

/-- The register a register-operand cell names: A = 0, B = 1, C = 2, D = 3, the whole cell compared (R11, R53;
the numbers are the spec's decision D1, log entry 5). -/
def regOf (c : Word) : Option Reg :=
  match c.toNat with
  | 0 => some .A
  | 1 => some .B
  | 2 => some .C
  | 3 => some .D
  | _ => none

/-- The register id a program writes for a register (R11). -/
def Reg.cell : Reg → Word
  | .A => 0
  | .B => 1
  | .C => 2
  | .D => 3

/-- What the cells at the program counter read as. -/
inductive Decoded where
  /-- an instruction, and the cells after it -/
  | instr (i : Instr) (rest : List Word)
  /-- there is no opcode cell -/
  | noCell
  /-- the opcode cell is outside 0..18 (R57) -/
  | illegalOpcode (op : Word)
  /-- the cells end after a first register operand that is no register id: the handler stops there (R73), so the
  missing cell is never read -/
  | illegalRegister (r : Word)
  /-- the cells end before an operand the handler reads (R35) -/
  | missingOperand
  deriving DecidableEq, Repr

/-- Formats `FR` and `FI`: one operand cell (R51). -/
def decodeOne (mk : Word → Instr) : List Word → Decoded
  | c :: rest => .instr (mk c) rest
  | [] => .missingOperand

/-- Formats `FRI` and `FRR`: a register cell, then one more (R51); the second is read only after the first was
validated (R73). -/
def decodeTwo (mk : Word → Word → Instr) : List Word → Decoded
  | c :: d :: rest => .instr (mk c d) rest
  | [c] => if (regOf c).isSome then .missingOperand else .illegalRegister c
  | [] => .missingOperand

/-- The opcode map (R55); the opcode cell is compared as a whole value (R52), so that every cell outside 0..18 is
rejected (R57). -/
def decode : List Word → Decoded
  | [] => .noCell
  | op :: rest =>
    match op.toNat with
    | 0 => .instr .nop rest
    | 1 => .instr .halt rest
    | 2 => decodeOne .add rest
    | 3 => decodeOne .sub rest
    | 4 => decodeOne .mul rest
    | 5 => decodeOne .div rest
    | 6 => decodeOne .inc rest
    | 7 => decodeOne .dec rest
    | 8 => decodeOne .loop rest
    | 9 => decodeTwo .movr rest
    | 10 => decodeTwo .load rest
    | 11 => decodeTwo .store rest
    | 12 => decodeOne .in_ rest
    | 13 => decodeOne .get rest
    | 14 => decodeOne .out rest
    | 15 => decodeOne .put rest
    | 16 => decodeTwo .swap rest
    | 17 => decodeOne .push rest
    | 18 => decodeOne .pop rest
    | _ => .illegalOpcode op

/-- The opcode of an instruction (R55). -/
def Instr.opcode : Instr → Word
  | .nop => 0
  | .halt => 1
  | .add _ => 2
  | .sub _ => 3
  | .mul _ => 4
  | .div _ => 5
  | .inc _ => 6
  | .dec _ => 7
  | .loop _ => 8
  | .movr _ _ => 9
  | .load _ _ => 10
  | .store _ _ => 11
  | .in_ _ => 12
  | .get _ => 13
  | .out _ => 14
  | .put _ => 15
  | .swap _ _ => 16
  | .push _ => 17
  | .pop _ => 18

/-- The operand cells of an instruction, in encoding order (R51). -/
def Instr.operands : Instr → List Word
  | .nop => []
  | .halt => []
  | .add r => [r]
  | .sub r => [r]
  | .mul r => [r]
  | .div r => [r]
  | .inc r => [r]
  | .dec r => [r]
  | .loop n => [n]
  | .movr r n => [r, n]
  | .load r n => [r, n]
  | .store r n => [r, n]
  | .in_ r => [r]
  | .get r => [r]
  | .out r => [r]
  | .put r => [r]
  | .swap r1 r2 => [r1, r2]
  | .push r => [r]
  | .pop r => [r]

/-- The cells of an instruction: the opcode cell, then its operand cells (R50). -/
def encode (i : Instr) : List Word := i.opcode :: i.operands

/-- The length of an instruction in cells, a function of its opcode alone (R55, R56). -/
def Instr.cells (i : Instr) : Nat := (encode i).length

/-- One program cell from its four bytes in file order (R38). The pattern of `u` read signed is `u` or `u - 2^32`. -/
def cellOfBytes (order : ByteOrder) (b0 b1 b2 b3 : Byte) : Word :=
  match order with
  | .little => BitVec.ofNat 32 (b0.toNat + 256 * b1.toNat + 65536 * b2.toNat + 16777216 * b3.toNat)
  | .big => BitVec.ofNat 32 (b3.toNat + 256 * b2.toNat + 65536 * b1.toNat + 16777216 * b0.toNat)

/-- The cells of a program binary in file order; none where the length is no multiple of four (R38, R201). -/
def cellsOfBytes (order : ByteOrder) : List Byte → Option (List Word)
  | [] => some []
  | b0 :: b1 :: b2 :: b3 :: rest => (cellsOfBytes order rest).map (cellOfBytes order b0 b1 b2 b3 :: ·)
  | _ => none

/-- The byte of a cell that holds bits `8 * j + 7 .. 8 * j`. -/
def byteOfCell (w : Word) (j : Nat) : Byte := BitVec.ofNat 8 (w.toNat / 256 ^ j)

/-- The four bytes that load as the cell (R38). -/
def bytesOfCell (order : ByteOrder) (w : Word) : List Byte :=
  match order with
  | .little => [byteOfCell w 0, byteOfCell w 1, byteOfCell w 2, byteOfCell w 3]
  | .big => [byteOfCell w 3, byteOfCell w 2, byteOfCell w 1, byteOfCell w 0]

/-- The program binary that loads as the cells. -/
def bytesOfCells (order : ByteOrder) (cs : List Word) : List Byte := cs.flatMap (bytesOfCell order)

/-- The three cells that `nbits` bits of `w` fill, the first cell in the lowest bits and every bit above `nbits` zero:
the numbering of spec/opcode_table.json. Three cells are the longest instruction (R50). -/
def tableCells (nbits w : Nat) : List Word :=
  let v := w % 2 ^ nbits
  [BitVec.ofNat 32 v, BitVec.ofNat 32 (v / 2 ^ 32), BitVec.ofNat 32 (v / 2 ^ 64)]

/-- The instruction the decoder reads from the cells of `w`, none where it rejects them. -/
def decodeTableWord (nbits w : Nat) : Option Instr :=
  match decode (tableCells nbits w) with
  | .instr i _ => some i
  | .noCell => none
  | .illegalOpcode _ => none
  | .illegalRegister _ => none
  | .missingOperand => none

end Sys2Proof
end

