-- ==== Sys2Proof/Machine/State.lean ====
section
/-! DEFINITION. The state of the CORE (R10), its parameters (R4), the environment its ports reach (R23, R150), the
reasons a step can stop, and the state after reset (R25). -/

namespace Sys2Proof.Machine

/-- The status register (R15), one of eight values; only `ok` permits execution (R16). -/
inductive Status where
  | ok
  | halted
  | illegalInstruction
  | illegalOperand
  | invalidAddress
  | invalidStackOperation
  | divByZero
  | ioError
  deriving DecidableEq, Repr

/-- The four general registers (R11). -/
structure Regs where
  /-- A, `x[0]`, the accumulator -/
  a : Word
  /-- B, `x[1]` -/
  b : Word
  /-- C, `x[2]`, tested by `loop`, cleared at end of input -/
  c : Word
  /-- D, `x[3]`, the index of `load` and `store` -/
  d : Word
  deriving DecidableEq, Repr

/-- The memory `M` (R20, R30) as (cell index, cell) pairs. The spec's smallest addressable unit is the 32-bit cell
("there are no byte addresses"), so a pair holds a cell and not a byte (log entry 1, DEDUCED, safe). An index that is
not listed reads as zero (R200 zero-fills the memory). -/
abbrev Memory := List (Nat × Word)

/-- The canonical form: indices strictly rising and no listed cell zero. -/
abbrev Memory.wf (m : Memory) : Prop := m.Pairwise (fun p q => p.1 < q.1) ∧ ∀ p ∈ m, p.2 ≠ 0

/-- An output event (R150): `OutDec(v)` or `OutByte(b)`. -/
inductive OutEvent where
  | dec (v : Word)
  | byte (b : Byte)
  deriving DecidableEq, Repr

/-- The environment the ports reach (R23, R150), the MODEL's own form of it (log entries 17 and 18). -/
structure Env where
  /-- answers ready for `InDec`, next first -/
  decIn : List DecAnswer
  /-- with none ready, the decimal source withholds its answer (R81, U14) -/
  decHeld : Bool
  /-- how many decimal answers were taken -/
  decAsked : Nat
  /-- answers ready for `InByte`, next first -/
  byteIn : List ByteAnswer
  /-- with none ready, the byte source withholds its answer (R81, U14) -/
  byteHeld : Bool
  /-- how many byte answers were taken -/
  byteAsked : Nat
  /-- the combined output sink, oldest event first (R150) -/
  sink : List OutEvent
  deriving DecidableEq, Repr

/-- The architectural state (R10), with the load-time parameters and the environment. -/
structure State where
  /-- `x[0..3]` (R11) -/
  regs : Regs
  /-- `instruction_index`, counted in cells (R13) -/
  pc : Word
  /-- the status register (R15) -/
  status : Status
  /-- `stack_size` (R17) -/
  ssize : Nat
  /-- `stack_top_index` (R18) -/
  st : Int
  /-- `stack_bottom_index` (R18) -/
  sb : Int
  /-- `M` (R20) -/
  mem : Memory
  /-- `K`, `CAP`, `N`, `LOAD_BYTE_ORDER` (R4) -/
  params : Params
  /-- the environment (R23, R150) -/
  env : Env
  deriving DecidableEq, Repr

/-- Why a step ends with no next state. -/
inductive Fault where
  /-- Raised by `load`, `store`, `push`, `pop` and the opcode fetch on a cell index outside `0..N-1`, which "do not
  exist" (R41). Safe: the machine's own checks keep every run from it (R34, R36, R37). -/
  | outsideMemory
  /-- Raised by `in` and `get` when the environment withholds its answer: "the step has no completion until the
  environment answers" (R81, U14). Safe: the model stops where the machine waits. -/
  | inputHold
  deriving DecidableEq, Repr

/-- What the model gives no meaning, each where the spec says so. -/
inductive Refusal where
  /-- Raised by an arm of `exec` whose instruction has no meaning yet; no arm does. Safe. -/
  | notModelled (mnemonic : String)
  /-- Raised by `step` where a handler reads an operand cell at an index of `N` or more: `Unmodelled` (R35, U3). Safe. -/
  | operandFetchOutsideMemory
  /-- Raised by `load` on a binary whose length is no multiple of four bytes: the load fails (R201). Safe. -/
  | loadFailed
  /-- Raised by `load` and `create` on parameters outside R4 or not the load's own (R202, U8). Safe. -/
  | layoutRefused
  /-- Raised by `getRegister` and `setRegister` on an id outside 0..3, "a programming contract violation" (R12, U5).
  Safe. -/
  | registerIdRefused
  /-- Raised by a host call before `create` or after `destroy` (R206, R209, U9). Safe. -/
  | noLiveInstance
  deriving DecidableEq, Repr

/-- The environment before anything was read or written, no answer listed and none withheld
(log entries 17 and 18, DESIGN CHOICE). -/
def Env.fresh : Env := ⟨[], false, 0, [], false, 0, []⟩

/-- The machine after load and `create` (R25), with the parameters of log entry 3 and no program. -/
def State.reset : State where
  regs := ⟨0, 0, 0, 0⟩
  pc := 0
  status := .ok
  ssize := 0
  st := (Config.resetParams.n : Int) - Config.resetParams.cap
  sb := (Config.resetParams.n : Int) - 1
  mem := []
  params := Config.resetParams
  env := Env.fresh

end Sys2Proof.Machine
end

