-- ==== Sys2Proof/Machine/Ops.lean ====
section
/-! DEFINITION. The operations over registers, memory, program counter, status and ports that every meaning is built
from. Each register, cell and port is reached through these alone. -/

namespace Sys2Proof.Machine

/-- What a meaning answers. -/
abbrev Out := Host.Outcome State Fault Refusal

/-- `wrap32`: the `int32` congruent to `z` modulo 2^32 (00_scope, Notation; D4, log entry 8). -/
def wrap32 (z : Int) : Word := BitVec.ofInt 32 z

/-- Reading a register, `x[i]` (R11). -/
def Regs.read (x : Regs) : Reg → Word
  | .A => x.a
  | .B => x.b
  | .C => x.c
  | .D => x.d

/-- Writing a register, `x[i] <- v` (R11). -/
def Regs.write (x : Regs) (r : Reg) (v : Word) : Regs :=
  match r with
  | .A => { x with a := v }
  | .B => { x with b := v }
  | .C => { x with c := v }
  | .D => { x with d := v }

/-- `x[r]` in a state. -/
def State.reg (s : State) (r : Reg) : Word := s.regs.read r

/-- `x[r] <- v` in a state. -/
def State.setReg (s : State) (r : Reg) (v : Word) : State := { s with regs := s.regs.write r v }

/-- The program counter moved past `k` cells it has read (R13). -/
def State.advance (s : State) (k : Word) : State := { s with pc := s.pc + k }

/-- `pc <- target`, unchecked (R92). -/
def State.jump (s : State) (target : Word) : State := { s with pc := target }

/-- `raise S`, the one way an exceptional event is taken: the status is latched, nothing is saved, control goes nowhere
(R170, R179). There is no return from it but the host's reset (R182), `State.warmReset` below. -/
def State.raise (s : State) (e : Status) : State := { s with status := e }

/-- The cell at index `a`; an unlisted cell is zero (R200). -/
def Memory.read : Memory → Nat → Word
  | [], _ => 0
  | (b, w) :: m, a => if a = b then w else Memory.read m a

/-- The memory with cell `a` set to `v`, in canonical form where `m` is. -/
def Memory.write : Memory → Nat → Word → Memory
  | [], a, v => if v = 0 then [] else [(a, v)]
  | (b, w) :: m, a, v =>
    if a < b then (if v = 0 then (b, w) :: m else (a, v) :: (b, w) :: m)
    else if a = b then (if v = 0 then m else (a, v) :: m)
    else (b, w) :: Memory.write m a v

/-- The memory with every cell of `lo..hi` zero. -/
def Memory.clear (m : Memory) (lo hi : Int) : Memory := m.filter fun p => !decide (lo ≤ (p.1 : Int) ∧ (p.1 : Int) ≤ hi)

/-- The cells `cs` written one after another from index `a`. -/
def Memory.writeAll (m : Memory) (a : Nat) : List Word → Memory
  | [] => m
  | c :: cs => Memory.writeAll (m.write a c) (a + 1) cs

/-- Cell indices exist in `0..N-1` only (R30, R41). -/
abbrev State.hasCell (s : State) (i : Int) : Prop := 0 ≤ i ∧ i < (s.params.n : Int)

/-- `MemRead(i, 1)`; none where the cell does not exist (R41). -/
def State.memRead (s : State) (i : Int) : Option Word :=
  if s.hasCell i then some (s.mem.read i.toNat) else none

/-- `MemWrite(i, 1, v)`; none where the cell does not exist (R41). -/
def State.memWrite (s : State) (i : Int) (v : Word) : Option State :=
  if s.hasCell i then some { s with mem := s.mem.write i.toNat v } else none

/-- The next `k` cells from index `a` on, as far as memory reaches (R33, R35). -/
def State.cellsFrom (s : State) (a : Nat) : Nat → List Word
  | 0 => []
  | k + 1 => if a < s.params.n then s.mem.read a :: s.cellsFrom (a + 1) k else []

/-- `sp = SB - ssize`, the next free slot (R19). -/
def State.sp (s : State) : Int := s.sb - (s.ssize : Int)

/-- The count of pushed cells set to `k` (R17). -/
def State.setSsize (s : State) (k : Nat) : State := { s with ssize := k }

/-- The environment replaced. -/
def State.setEnv (s : State) (e : Env) : State := { s with env := e }

/-- `InDec()` (R150): the first answer the environment has ready, else its free answer; none where it withholds the
answer (R81, U14). -/
def Env.askDec (e : Env) : Option (DecAnswer × Env) :=
  match e.decIn with
  | a :: rest => some (a, { e with decIn := rest, decAsked := e.decAsked + 1 })
  | [] => if e.decHeld then none else some (Config.decAnswer e.decAsked, { e with decAsked := e.decAsked + 1 })

/-- `InByte()` (R150), as `Env.askDec`. -/
def Env.askByte (e : Env) : Option (ByteAnswer × Env) :=
  match e.byteIn with
  | a :: rest => some (a, { e with byteIn := rest, byteAsked := e.byteAsked + 1 })
  | [] => if e.byteHeld then none else some (Config.byteAnswer e.byteAsked, { e with byteAsked := e.byteAsked + 1 })

/-- `OutDec` and `OutByte` append one event to the sink and always succeed (R150). -/
def State.emit (s : State) (o : OutEvent) : State := { s with env := { s.env with sink := s.env.sink ++ [o] } }

/-- The warm `reset` (R203): the used window zeroed with the old `ssize`, registers, status, program counter and stack
size as after create; the layout and the environment kept (R23, R204). -/
def State.warmReset (s : State) : State :=
  { s with
    mem := s.mem.clear (s.sp + 1) s.sb
    regs := ⟨0, 0, 0, 0⟩
    status := .ok
    pc := 0
    ssize := 0 }

end Sys2Proof.Machine
end

