-- ==== Sys2Proof/Machine/Operands.lean ====
section
/-! DEFINITION. The operand forms: a validated register operand (R73), the effective address of `load` and `store` with
its window check (R37), and the fullness of the stack (R132). An immediate is its whole cell (R54). -/

namespace Sys2Proof.Machine

/-- A register operand: the register its cell names goes to `k`; a cell that is no register id raises ILLEGAL_OPERAND
in `stop`, the state with the program counter past the cell just read, before any other effect (R73, R181). -/
def withReg (c : Word) (stop : State) (k : Reg → Out) : Out :=
  match regOf c with
  | some r => k r
  | none => .next (stop.raise .illegalOperand)

/-- `EA = (SB - ssize) + D + n + 1` over unbounded integers (R37). -/
def State.effAddr (s : State) (n : Word) : Int := s.sp + (s.reg .D).toInt + n.toInt + 1

/-- The currently used stack window `[SB - ssize + 1, SB]` (R19, R37). -/
abbrev State.inWindow (s : State) (ea : Int) : Prop := s.sp + 1 ≤ ea ∧ ea ≤ s.sb

/-- "stack is full (stack_size == stack_bottom_index - stack_top_index + 1)" (R132). -/
abbrev State.stackFull (s : State) : Prop := (s.ssize : Int) = s.sb - s.st + 1

end Sys2Proof.Machine
end

