-- ==== Sys2Proof/Machine/Arith.lean ====
section
/-! DEFINITION. Arithmetic: `add`, `sub`, `mul`, `div`, `inc`, `dec` (42_arith.md). Results are exact over the integers
and narrowed once by `wrap32` (R100). -/

namespace Sys2Proof.Machine

/-- The shape `A <- wrap32 (f A x[r])` of `add`, `sub` and `mul` (R101 to R103). -/
def accumulate (f : Int → Int → Int) (c : Word) (s : State) : Out :=
  withReg c (s.advance 2) fun r =>
    .next ((s.advance 2).setReg .A (wrap32 (f (s.reg .A).toInt (s.reg r).toInt)))

/-- The shape `x[r] <- wrap32 (x[r] + k)` of `inc` and `dec` (R105, R106). -/
def bump (k : Int) (c : Word) (s : State) : Out :=
  withReg c (s.advance 2) fun r => .next ((s.advance 2).setReg r (wrap32 ((s.reg r).toInt + k)))

/-- `add r` (R101). -/
def execAdd (c : Word) (s : State) : Out := accumulate (fun a b => a + b) c s

/-- `sub r` (R102). -/
def execSub (c : Word) (s : State) : Out := accumulate (fun a b => a - b) c s

/-- `mul r` (R103). -/
def execMul (c : Word) (s : State) : Out := accumulate (fun a b => a * b) c s

/-- `div r` (R104): division by zero is found before A is touched; the quotient is rounded toward zero (`tdiv`). -/
def execDiv (c : Word) (s : State) : Out :=
  withReg c (s.advance 2) fun r =>
    if s.reg r = 0 then .next ((s.advance 2).raise .divByZero)
    else .next ((s.advance 2).setReg .A (wrap32 (Int.tdiv (s.reg .A).toInt (s.reg r).toInt)))

/-- `inc r` (R105). -/
def execInc (c : Word) (s : State) : Out := bump 1 c s

/-- `dec r` (R106). -/
def execDec (c : Word) (s : State) : Out := bump (-1) c s

end Sys2Proof.Machine
end

