-- ==== Sys2Proof/Machine/Control.lean ====
section
/-! DEFINITION. Control: `nop`, `halt`, `loop` (41_control.md). A meaning starts with the program counter at the opcode
cell and moves it past every cell its handler reads (R13, R71, R72; log entry 31). -/

namespace Sys2Proof.Machine

/-- `nop` (R90). -/
def execNop (s : State) : Out := .next (s.advance 1)

/-- `halt` (R91): `raise HALTED`, the program counter past the opcode cell. -/
def execHalt (s : State) : Out := .next ((s.advance 1).raise .halted)

/-- `loop n` (R92): register C is tested, never changed; the target is not checked here. -/
def execLoop (n : Word) (s : State) : Out := .next (if s.reg .C ≠ 0 then s.jump n else s.advance 2)

end Sys2Proof.Machine
end

