-- ==== Sys2Proof/Machine/Io.lean ====
section
/-! DEFINITION. Input and output: `in`, `get`, `out`, `put` (45_io.md), and the bytes the sink holds (R150). -/

namespace Sys2Proof.Machine

/-- End of input: C is set to 0, then the target register to -1, in this order (R151, R152; D14, log entry 16). -/
def State.endOfInput (s : State) (r : Reg) : State := (s.setReg .C 0).setReg r (-1)

/-- What `in r` does with the decimal source's answer (R151). -/
def State.takeDec (s : State) (r : Reg) : DecAnswer → State
  | .int v => s.setReg r v
  | .parseFail => s.raise .ioError
  | .eof => s.endOfInput r

/-- What `get r` does with the byte source's answer (R152); the byte is zero-extended. -/
def State.takeByte (s : State) (r : Reg) : ByteAnswer → State
  | .byte b => s.setReg r (b.setWidth 32)
  | .eof => s.endOfInput r

/-- `in r` (R151): the port is asked only after the register cell was validated; the step is held while the
environment withholds its answer (R81, U14). -/
def execIn (c : Word) (s : State) : Out :=
  withReg c (s.advance 2) fun r =>
    match s.env.askDec with
    | some (a, e) => .next (((s.advance 2).setEnv e).takeDec r a)
    | none => .fault .inputHold

/-- `get r` (R152). -/
def execGet (c : Word) (s : State) : Out :=
  withReg c (s.advance 2) fun r =>
    match s.env.askByte with
    | some (a, e) => .next (((s.advance 2).setEnv e).takeByte r a)
    | none => .fault .inputHold

/-- `out r` (R153). -/
def execOut (c : Word) (s : State) : Out :=
  withReg c (s.advance 2) fun r => .next ((s.advance 2).emit (.dec (s.reg r)))

/-- `put r` (R154): the whole signed value must be a byte, else ILLEGAL_OPERAND and nothing is written. -/
def execPut (c : Word) (s : State) : Out :=
  withReg c (s.advance 2) fun r =>
    if 0 ≤ (s.reg r).toInt ∧ (s.reg r).toInt ≤ 255 then
      .next ((s.advance 2).emit (.byte ((s.reg r).setWidth 8)))
    else .next ((s.advance 2).raise .illegalOperand)

/-- The decimal digits of `n` as ASCII, at most `fuel` of them, with no leading zero (R150). -/
def digits : Nat → Nat → List Byte
  | 0, _ => []
  | fuel + 1, n =>
    if n < 10 then [BitVec.ofNat 8 (48 + n)] else digits fuel (n / 10) ++ [BitVec.ofNat 8 (48 + n % 10)]

/-- The shortest signed decimal numeral of a cell (R150; D16, log entry 19): a `-` (2DH) where it is negative, then the
digits; ten digits are enough for an `int32`. -/
def decText (v : Word) : List Byte :=
  (if v.toInt < 0 then [45] else []) ++ digits 10 v.toInt.natAbs

/-- The bytes an output event stands for (R150). -/
def OutEvent.bytes : OutEvent → List Byte
  | .dec v => decText v
  | .byte b => [b]

/-- The bytes of the whole sink, with nothing between events (R150). -/
def sinkBytes (sink : List OutEvent) : List Byte := sink.flatMap OutEvent.bytes

end Sys2Proof.Machine
end

