-- ==== Sys2Proof/Machine/Move.lean ====
section
/-! DEFINITION. Register moves: `movr`, `swap` (43_move.md). -/

namespace Sys2Proof.Machine

/-- `movr r n` (R120): the immediate is read only after the register cell was validated. -/
def execMovr (c n : Word) (s : State) : Out :=
  withReg c (s.advance 2) fun r => .next ((s.advance 3).setReg r n)

/-- `swap r1 r2` (R121): both cells are validated, in order, before either register changes. -/
def execSwap (c1 c2 : Word) (s : State) : Out :=
  withReg c1 (s.advance 2) fun r1 =>
    withReg c2 (s.advance 3) fun r2 =>
      .next (((s.advance 3).setReg r1 (s.reg r2)).setReg r2 (s.reg r1))

end Sys2Proof.Machine
end

