-- ==== Sys2Proof/Machine/Stack.lean ====
section
/-! DEFINITION. The stack and stack-relative memory: `load`, `store`, `push`, `pop` (44_stack.md). -/

namespace Sys2Proof.Machine

/-- `load r n` (R130): D is read for the address before `r` is written. -/
def execLoad (c n : Word) (s : State) : Out :=
  withReg c (s.advance 2) fun r =>
    if s.inWindow (s.effAddr n) then
      match s.memRead (s.effAddr n) with
      | some v => .next ((s.advance 3).setReg r v)
      | none => .fault .outsideMemory
    else .next ((s.advance 3).raise .invalidStackOperation)

/-- `store r n` (R131): the window check is `load`'s. -/
def execStore (c n : Word) (s : State) : Out :=
  withReg c (s.advance 2) fun r =>
    if s.inWindow (s.effAddr n) then
      match (s.advance 3).memWrite (s.effAddr n) (s.reg r) with
      | some t => .next t
      | none => .fault .outsideMemory
    else .next ((s.advance 3).raise .invalidStackOperation)

/-- `push r` (R132): the value goes to the next free slot `SB - ssize`. -/
def execPush (c : Word) (s : State) : Out :=
  withReg c (s.advance 2) fun r =>
    if s.stackFull then .next ((s.advance 2).raise .invalidStackOperation)
    else
      match (s.advance 2).memWrite s.sp (s.reg r) with
      | some t => .next (t.setSsize (s.ssize + 1))
      | none => .fault .outsideMemory

/-- `pop r` (R133): the freed slot is `SB - ssize + 1` of the old `ssize`; it is read, then zeroed. -/
def execPop (c : Word) (s : State) : Out :=
  withReg c (s.advance 2) fun r =>
    if s.ssize = 0 then .next ((s.advance 2).raise .invalidStackOperation)
    else
      match s.memRead (s.sp + 1), (s.advance 2).memWrite (s.sp + 1) 0 with
      | some v, some t => .next ((t.setSsize (s.ssize - 1)).setReg r v)
      | _, _ => .fault .outsideMemory

end Sys2Proof.Machine
end

