-- ==== Sys2Proof/Machine/Dispatch.lean ====
section
/-! DEFINITION. Dispatch: one arm per instruction, each the one handler R55 names (R74). -/

namespace Sys2Proof.Machine

/-- The meaning of an instruction whose opcode cell the program counter points at (R74). -/
def exec (i : Instr) (s : State) : Host.Outcome State Fault Refusal :=
  match i with
  | .nop => Sys2Proof.Machine.execNop s
  | .halt => Sys2Proof.Machine.execHalt s
  | .add r => Sys2Proof.Machine.execAdd r s
  | .sub r => Sys2Proof.Machine.execSub r s
  | .mul r => Sys2Proof.Machine.execMul r s
  | .div r => Sys2Proof.Machine.execDiv r s
  | .inc r => Sys2Proof.Machine.execInc r s
  | .dec r => Sys2Proof.Machine.execDec r s
  | .loop n => Sys2Proof.Machine.execLoop n s
  | .movr r n => Sys2Proof.Machine.execMovr r n s
  | .load r n => Sys2Proof.Machine.execLoad r n s
  | .store r n => Sys2Proof.Machine.execStore r n s
  | .in_ r => Sys2Proof.Machine.execIn r s
  | .get r => Sys2Proof.Machine.execGet r s
  | .out r => Sys2Proof.Machine.execOut r s
  | .put r => Sys2Proof.Machine.execPut r s
  | .swap r1 r2 => Sys2Proof.Machine.execSwap r1 r2 s
  | .push r => Sys2Proof.Machine.execPush r s
  | .pop r => Sys2Proof.Machine.execPop r s

end Sys2Proof.Machine
end

