-- ==== Sys2Proof/Machine/Fetch.lean ====
section
/-! DEFINITION. The front of `Step` (R71, lines 1 to 5): the stopped check, the program-counter check, the fetch of the
cells at the program counter and their decoding. -/

namespace Sys2Proof.Machine

/-- The outcome of the front of a step. -/
inductive Fetched where
  /-- an instruction to execute -/
  | run (i : Instr)
  /-- the step ends here, in this state -/
  | settled (t : State)
  /-- the step has no meaning -/
  | refused (r : Refusal)
  /-- the step cannot go on -/
  | fault (f : Fault)
  deriving DecidableEq, Repr

/-- The program counter is in the fetch region `[0, ST - 1]`, the comparison signed (R34). -/
abbrev State.pcInRegion (s : State) : Prop := 0 ≤ s.pc.toInt ∧ s.pc.toInt ≤ s.st - 1

/-- The cells the next instruction can be read from: three, the longest instruction, or as many as memory has left.
Reading a cell has no side effect (R40), so reading more of them than the handler would is not observable; the handler's
own order of reads and checks is kept by `decode` (R73; log entry 14). -/
def State.fetchCells (s : State) : List Word := s.cellsFrom s.pc.toInt.toNat 3

/-- Lines 1 to 5 of `Step` (R71). INVALID_ADDRESS and ILLEGAL_INSTRUCTION leave the program counter unchanged (D9,
log entry 13). A first register operand that is no register id, with no cell after it, raises ILLEGAL_OPERAND as its
handler would (R73); an operand cell at an index of `N` or more is `Unmodelled` (R35, U3). -/
def fetch (s : State) : Fetched :=
  if s.status ≠ .ok then .settled s
  else if s.pcInRegion then
    match decode s.fetchCells with
    | .instr i _ => .run i
    | .noCell => .fault .outsideMemory
    | .illegalOpcode _ => .settled (s.raise .illegalInstruction)
    | .illegalRegister _ => .settled ((s.advance 2).raise .illegalOperand)
    | .missingOperand => .refused .operandFetchOutsideMemory
  else .settled (s.raise .invalidAddress)

end Sys2Proof.Machine
end

