-- ==== Sys2Proof/Machine/Step.lean ====
section
/-! DEFINITION. One step of the CORE (R71), and an instruction placed where the next step fetches. -/

namespace Sys2Proof.Machine

/-- `Step` (R71). A stopped CORE answers its own state (R77). Whether the step progressed is `progressed` in
HostOps.lean (R75). -/
def step (s : State) : Host.Outcome State Fault Refusal :=
  match fetch s with
  | .run i => exec i s
  | .settled t => .next t
  | .refused r => .refused r
  | .fault f => .fault f

/-- The state with the instruction of `w`'s bits in the cells from the program counter on, standing for the load of a
program that holds it there: the three cells are written, `K` covers them, and the CORE is runnable. The three cells
must lie in the fetch region, as they do at `State.reset` (log entry 4). -/
def State.withFetchWord (s : State) (nbits w : Nat) : State :=
  { s with
    mem := s.mem.writeAll s.pc.toInt.toNat (tableCells nbits w)
    params := { s.params with k := max s.params.k (s.pc.toInt.toNat + 3) }
    status := .ok }

end Sys2Proof.Machine
end

