-- ==== Sys2Proof/Machine/Flags.lean ====
section
/-! DEFINITION. The hardware has no flags (R21); the one flag-like thing is the status latch, whose codes and kinds stand
here (R15, R16). No instruction reads them. -/

namespace Sys2Proof.Machine

/-- The code of a status in DOC00's listing order (R15; D2, log entry 6). -/
def Status.code : Status → Nat
  | .ok => 0
  | .halted => 1
  | .illegalInstruction => 2
  | .illegalOperand => 3
  | .invalidAddress => 4
  | .invalidStackOperation => 5
  | .divByZero => 6
  | .ioError => 7

/-- Stopped on an error: neither runnable nor cleanly halted (R15, R78). -/
def Status.isError : Status → Bool
  | .ok => false
  | .halted => false
  | .illegalInstruction => true
  | .illegalOperand => true
  | .invalidAddress => true
  | .invalidStackOperation => true
  | .divByZero => true
  | .ioError => true

end Sys2Proof.Machine
end

