-- ==== Sys2Proof/Machine/HostOps.lean ====
section
/-! DEFINITION. The host's operations on the CORE (R26, R209): load, create, step's `progressed`, run, the register,
status and stack-size accessors, reset, destroy; and what the environment can do between steps (R81, R150). -/

namespace Sys2Proof.Machine

/-- What `Load` produces (R200): the memory, the stack bottom, and the parameters now fixed. -/
structure Image where
  mem : Memory
  sb : Int
  params : Params
  deriving DecidableEq, Repr

/-- `Load` (R200, R201): a length that is no multiple of four fails; parameters outside R4 (`CAP >= 0`,
`K + CAP <= N <= 2^31 - 3`) are refused (D7, D8, D23; log entry 26). -/
def load (order : ByteOrder) (bytes : List Byte) (cap : Int) (n : Nat) : Host.Outcome Image Fault Refusal :=
  match cellsOfBytes order bytes with
  | none => .refused .loadFailed
  | some cs =>
    if 0 ≤ cap ∧ (cs.length : Int) + cap ≤ n ∧ n ≤ Config.maxCells then
      .next ⟨Memory.writeAll [] 0 cs, (n : Int) - 1, ⟨cs.length, cap.toNat, n, order⟩⟩
    else .refused .layoutRefused

/-- `create` (R202): the cold reset around a loaded memory; a bottom index or capacity that is not the load's is refused
(D32, U8). The environment is whatever the host supplies (R205). -/
def create (img : Image) (sb cap : Int) (env : Env) : Out :=
  if sb = img.sb ∧ cap = img.params.cap then
    .next {
      regs := ⟨0, 0, 0, 0⟩, pc := 0, status := .ok, ssize := 0, st := sb - cap + 1, sb := sb, mem := img.mem,
      params := img.params, env := env }
  else .refused .layoutRefused

/-- The Boolean `Step` returns (R71, R75); false for a step that does not complete. -/
def progressed (s : State) : Bool :=
  match step s with
  | .next t => decide (t.status = .ok)
  | .fault _ => false
  | .refused _ => false

/-- The loop of `Run` (R78, line 3): at most `budget` more steps while the status is OK, `count` made so far. -/
def runLoop : Nat → Nat → State → Host.Outcome (Nat × State) Fault Refusal
  | 0, count, s => .next (count, s)
  | budget + 1, count, s =>
    if s.status = .ok then
      match step s with
      | .next t => runLoop budget (count + 1) t
      | .fault f => .fault f
      | .refused r => .refused r
    else .next (count, s)

/-- `Run(max_steps)` (R78, R79): the signed count of steps attempted and the state it leaves; a negative budget is an
empty one (D19). A run whose step is held or has no meaning does not return. -/
def run (maxSteps : Word) (s : State) : Host.Outcome (Int × State) Fault Refusal :=
  if s.status ≠ .ok then .next (0, s)
  else
    match runLoop maxSteps.toInt.toNat 0 s with
    | .next (count, t) => .next (if t.status.isError then -(count : Int) else (count : Int), t)
    | .fault f => .fault f
    | .refused r => .refused r

/-- The register a host's id names (R12); an id outside 0..3 is a contract violation. -/
def hostReg (id : Int) : Option Reg :=
  if 0 ≤ id ∧ id ≤ 3 then regOf (BitVec.ofInt 32 id) else none

/-- `get_register(id)` (R12, R26). -/
def getRegister (id : Int) (s : State) : Host.Outcome Word Fault Refusal :=
  match hostReg id with
  | some r => .next (s.reg r)
  | none => .refused .registerIdRefused

/-- `set_register(id, v)`, legal in any status (R12). -/
def setRegister (id : Int) (v : Word) (s : State) : Out :=
  match hostReg id with
  | some r => .next (s.setReg r v)
  | none => .refused .registerIdRefused

/-- `get_status` (R15, R26). -/
def getStatus (s : State) : Status := s.status

/-- `get_stack_size`, an `int32` (R17, R26). -/
def getStackSize (s : State) : Word := BitVec.ofNat 32 s.ssize

/-- The environment makes one more decimal answer ready, which also ends a hold (R81, R150). -/
def State.offerDec (s : State) (a : DecAnswer) : State :=
  s.setEnv { s.env with decIn := s.env.decIn ++ [a] }

/-- The environment makes one more byte answer ready (R81, R150). -/
def State.offerByte (s : State) (a : ByteAnswer) : State :=
  s.setEnv { s.env with byteIn := s.env.byteIn ++ [a] }

/-- The environment withholds decimal answers it has not made ready, or no longer does (U14). -/
def State.withholdDec (s : State) (held : Bool) : State := s.setEnv { s.env with decHeld := held }

/-- The environment withholds byte answers it has not made ready, or no longer does (U14). -/
def State.withholdByte (s : State) (held : Bool) : State := s.setEnv { s.env with byteHeld := held }

/-- The life of an instance (R209). -/
inductive Life where
  | uncreated
  | live (s : State)
  | destroyed
  deriving DecidableEq, Repr

/-- A call of the host on an instance (R26, R209). `create` makes a new instance and stands apart. -/
inductive Call where
  | step
  | run (maxSteps : Word)
  | getRegister (id : Int)
  | setRegister (id : Int) (v : Word)
  | getStatus
  | getStackSize
  | reset
  | destroy
  deriving DecidableEq, Repr

/-- What a call returns. -/
inductive Reply where
  | nothing
  | progressed (b : Bool)
  | count (c : Int)
  | value (v : Word)
  | status (e : Status)
  deriving DecidableEq, Repr

/-- A call on a live instance (R209). -/
def State.answer (s : State) : Call → Host.Outcome (Reply × Life) Fault Refusal
  | .step =>
    match Machine.step s with
    | .next t => .next (.progressed (Machine.progressed s), .live t)
    | .fault f => .fault f
    | .refused r => .refused r
  | .run m =>
    match Machine.run m s with
    | .next (c, t) => .next (.count c, .live t)
    | .fault f => .fault f
    | .refused r => .refused r
  | .getRegister id =>
    match Machine.getRegister id s with
    | .next v => .next (.value v, .live s)
    | .fault f => .fault f
    | .refused r => .refused r
  | .setRegister id v =>
    match Machine.setRegister id v s with
    | .next t => .next (.nothing, .live t)
    | .fault f => .fault f
    | .refused r => .refused r
  | .getStatus => .next (.status (Machine.getStatus s), .live s)
  | .getStackSize => .next (.value (Machine.getStackSize s), .live s)
  | .reset => .next (.nothing, .live s.warmReset)
  | .destroy => .next (.nothing, .destroyed)

/-- A host call in the life of an instance: nothing is legal before `create` or after `destroy` (R206, R209, U9). -/
def Life.answer (l : Life) (call : Call) : Host.Outcome (Reply × Life) Fault Refusal :=
  match l with
  | .live s => s.answer call
  | .uncreated => .refused .noLiveInstance
  | .destroyed => .refused .noLiveInstance

end Sys2Proof.Machine
end

