-- ==== Sys2Proof/Safety.lean ====
section
/-! DEFINITION. The terms claims use: the regions of memory (R31), the invariant of R24, fresh and reachable states. -/

namespace Sys2Proof.Machine

/-- A cell index of the fetch region `[0, ST - 1]` (R31). -/
abbrev State.inFetchRegion (s : State) (a : Nat) : Prop := (a : Int) ≤ s.st - 1

/-- A cell index of the stack region `[ST, SB]` (R31). -/
abbrev State.inStackRegion (s : State) (a : Nat) : Prop := s.st ≤ (a : Int) ∧ (a : Int) ≤ s.sb

/-- The invariant of R24, with the canonical form of the memory. -/
structure State.Inv (s : State) : Prop where
  /-- the parameters satisfy R4 -/
  admissible : s.params.admissible
  /-- (I-b) `SB = N - 1` -/
  bottom : s.sb = (s.params.n : Int) - 1
  /-- (I-b) `ST = SB - CAP + 1` -/
  top : s.st = s.sb - (s.params.cap : Int) + 1
  /-- (I-a) `0 <= ssize <= CAP` -/
  size : s.ssize ≤ s.params.cap
  /-- the memory is in canonical form -/
  memWf : s.mem.wf
  /-- only cells `0..N-1` are listed (R30) -/
  memBound : ∀ p ∈ s.mem, p.1 < s.params.n
  /-- gap cells are zero (R32) -/
  gapZero : ∀ a : Nat, s.params.k ≤ a → (a : Int) < s.st → s.mem.read a = 0
  /-- (I-d) unused stack cells are zero -/
  unusedZero : ∀ a : Nat, s.st ≤ (a : Int) → (a : Int) ≤ s.sp → s.mem.read a = 0

/-- A state as `create` leaves it (R25). -/
structure State.Fresh (s : State) : Prop where
  inv : s.Inv
  regs : s.regs = ⟨0, 0, 0, 0⟩
  pc : s.pc = 0
  status : s.status = .ok
  ssize : s.ssize = 0

/-- `k` steps one after another, ending early where a step has no next state. -/
def steps : Nat → State → Out
  | 0, s => .next s
  | k + 1, s =>
    match step s with
    | .next t => steps k t
    | .fault f => .fault f
    | .refused r => .refused r

/-- What can become of a created instance between calls (R209): steps, register writes and resets by the host, and
anything the environment does to its own streams. -/
inductive Reach (c : State) : State → Prop where
  | start : Reach c c
  | step {s t : State} : Reach c s → step s = .next t → Reach c t
  | setRegister {s t : State} (id : Int) (v : Word) : Reach c s → setRegister id v s = .next t → Reach c t
  | reset {s : State} : Reach c s → Reach c s.warmReset
  | environment {s : State} (e : Env) : Reach c s → Reach c (s.setEnv e)

/-- The registers an instruction can write (R12, R76): its destination operand, A for the accumulating four, and C for
`in` and `get`, which write it at end of input. -/
def mayWrite (i : Instr) (q : Reg) : Prop :=
  match i with
  | .nop => False
  | .halt => False
  | .add _ => q = .A
  | .sub _ => q = .A
  | .mul _ => q = .A
  | .div _ => q = .A
  | .inc c => regOf c = some q
  | .dec c => regOf c = some q
  | .loop _ => False
  | .movr c _ => regOf c = some q
  | .load c _ => regOf c = some q
  | .store _ _ => False
  | .in_ c => regOf c = some q ∨ q = .C
  | .get c => regOf c = some q ∨ q = .C
  | .out _ => False
  | .put _ => False
  | .swap c1 c2 => regOf c1 = some q ∨ regOf c2 = some q
  | .push _ => False
  | .pop c => regOf c = some q

/-- The one cell an instruction can store to, computed as its meaning computes it (R33); none for the others (R76). -/
def storeAddress (i : Instr) (s : State) : Option Int :=
  match i with
  | .store _ n => some (s.effAddr n)
  | .push _ => some s.sp
  | .pop _ => some (s.sp + 1)
  | .nop => none
  | .halt => none
  | .add _ => none
  | .sub _ => none
  | .mul _ => none
  | .div _ => none
  | .inc _ => none
  | .dec _ => none
  | .loop _ => none
  | .movr _ _ => none
  | .load _ _ => none
  | .in_ _ => none
  | .get _ => none
  | .out _ => none
  | .put _ => none
  | .swap _ _ => none

/-- The sink replaced, all else kept. -/
def State.withSink (s : State) (sink : List OutEvent) : State := s.setEnv { s.env with sink := sink }

/-- The instruction is refused its operands: ILLEGAL_OPERAND with the program counter `k` cells past the opcode cell and
nothing else changed (R73, R181). -/
abbrev RaisesIllegalOperand (i : Instr) (s : State) (k : Word) : Prop :=
  exec i s = .next { s with pc := s.pc + k, status := .illegalOperand }

/-- A cell that is no register id: its whole signed value is outside 0..3 (R53). -/
abbrev NoRegister (c : Word) : Prop := ¬ (0 ≤ c.toInt ∧ c.toInt ≤ 3)

/-- Whether the environment answers the decimal port at all: it has an answer ready, or does not withhold it (R81). -/
abbrev Env.decAnswers (e : Env) : Prop := e.decIn ≠ [] ∨ e.decHeld = false

/-- Whether the environment answers the byte port at all (R81). -/
abbrev Env.byteAnswers (e : Env) : Prop := e.byteIn ≠ [] ∨ e.byteHeld = false

end Sys2Proof.Machine
end

