-- ==== Sys2Proof/Certificates/Slice0/Obligations.lean ====
section
/-! DEFINITION. The statements for the provers. In every one `s` ranges over all states, so over all parameters `K`, `CAP`,
`N` (R4); `Inv` is the invariant of R24, which every step keeps (`Obligations.StepKeepsTheInvariant`). A meaning starts with
the program counter at the opcode cell. A docstring that names a decision D<n> or a log entry says that the clause is the
spec's own choice or the model's. -/

open Sys2Proof Sys2Proof.Machine

/-! ### Registers and operands -/

/-- R53, with the ids of R11 (decision D1, log entry 5): a register operand is a whole cell and names a register exactly when
its signed value is one of 0..3, A to D in order. -/
def Obligations.RegisterOperandIsAWholeCell : Prop :=
  ∀ c : Word, (regOf c = some .A ↔ c.toInt = 0) ∧ (regOf c = some .B ↔ c.toInt = 1) ∧ (regOf c = some .C ↔ c.toInt = 2) ∧
    (regOf c = some .D ↔ c.toInt = 3) ∧ (regOf c = none ↔ NoRegister c)

/-- R11: the four registers hold what was last written to them; none is hardwired, none aliases another. -/
def Obligations.RegistersNeitherAliasNorDiscard : Prop :=
  ∀ (s : State) (r q : Reg) (v : Word), (s.setReg r v).reg q = if q = r then v else s.reg q

/-! ### Control -/

/-- R90. `nop` advances the program counter by one and changes nothing else; a zero cell anywhere in the fetch region is a
`nop`; at index `ST - 1` the next step raises INVALID_ADDRESS. -/
def Obligations.NopOnlyAdvances : Prop :=
  encode .nop = [0] ∧
  (∀ s : State, exec .nop s = .next { s with pc := s.pc + 1 }) ∧
  (∀ s : State, s.Inv → s.status = .ok → s.pcInRegion → s.mem.read s.pc.toInt.toNat = 0 →
    step s = .next { s with pc := s.pc + 1 } ∧ progressed s = true ∧
    (s.pc.toInt = s.st - 1 → ∃ u, step { s with pc := s.pc + 1 } = .next u ∧ u.status = .invalidAddress))

/-- R91; the program counter after `halt` is decision D10 (log entry 13). `halt` latches HALTED and changes nothing else; until
a reset every further step and run changes nothing. -/
def Obligations.HaltStopsCleanly : Prop :=
  encode .halt = [1] ∧
  ∀ s : State, ∃ t, exec .halt s = .next t ∧ t = { s with pc := s.pc + 1, status := .halted } ∧
    step t = .next t ∧ progressed t = false ∧ ∀ m, run m t = .next (0, t)

/-- R92. `loop n` jumps to the absolute index `n` exactly when C is not zero, else moves past its two cells; C and everything
else is unchanged, so the step that runs it reports progress; a target outside the fetch region is caught on the next step,
which `Run` counts.
That C and all else are unchanged is R76's frame rule, decision D28 (log entry 22); the count -1 is R78's, decision D33 (log entry
24). -/
def Obligations.LoopTestsC : Prop :=
  (∀ n : Word, encode (.loop n) = [8, n]) ∧
  (∀ (s : State) (n : Word), s.reg .C ≠ 0 → exec (.loop n) s = .next { s with pc := n }) ∧
  (∀ (s : State) (n : Word), s.reg .C = 0 → exec (.loop n) s = .next { s with pc := s.pc + 2 }) ∧
  (∀ (s : State) (n : Word) (rest : List Word), s.status = .ok → s.pcInRegion →
    decode s.fetchCells = .instr (.loop n) rest → progressed s = true) ∧
  (∀ (s t : State) (n : Word), s.status = .ok → s.reg .C ≠ 0 → ¬ (0 ≤ n.toInt ∧ n.toInt ≤ s.st - 1) →
    exec (.loop n) s = .next t →
    ∃ u, step t = .next u ∧ u.status = .invalidAddress ∧ ∀ m : Word, 0 < m.toInt → run m t = .next (-1, u))

/-! ### Arithmetic -/

/-- R101. `add r`: A becomes the exact sum narrowed to 32 bits (the wrap is decision D4, log entry 8).
The program counter at a stop is decision D11 (log entry 13). -/
def Obligations.AddAccumulates : Prop :=
  (∀ c : Word, encode (.add c) = [2, c]) ∧
  (∀ (s : State) (r : Reg), exec (.add r.cell) s =
    .next { s with pc := s.pc + 2, regs := s.regs.write .A (wrap32 ((s.reg .A).toInt + (s.reg r).toInt)) }) ∧
  (∀ (s : State) (c : Word), NoRegister c → RaisesIllegalOperand (.add c) s 2)

/-- R102. `sub r`: A becomes A minus `x[r]`, narrowed (the wrap is decision D4, log entry 8).
The program counter at a stop is decision D11 (log entry 13). -/
def Obligations.SubAccumulates : Prop :=
  (∀ c : Word, encode (.sub c) = [3, c]) ∧
  (∀ (s : State) (r : Reg), exec (.sub r.cell) s =
    .next { s with pc := s.pc + 2, regs := s.regs.write .A (wrap32 ((s.reg .A).toInt - (s.reg r).toInt)) }) ∧
  (∀ (s : State) (c : Word), NoRegister c → RaisesIllegalOperand (.sub c) s 2)

/-- R103. `mul r`: A becomes the low 32 bits of the signed product (the wrap is decision D4, log entry 8).
The program counter at a stop is decision D11 (log entry 13). -/
def Obligations.MulAccumulates : Prop :=
  (∀ c : Word, encode (.mul c) = [4, c]) ∧
  (∀ (s : State) (r : Reg), exec (.mul r.cell) s =
    .next { s with pc := s.pc + 2, regs := s.regs.write .A (wrap32 ((s.reg .A).toInt * (s.reg r).toInt)) }) ∧
  (∀ (s : State) (c : Word), NoRegister c → RaisesIllegalOperand (.mul c) s 2)

/-- R104. `div r`: a zero divisor raises DIV_BY_ZERO with A unchanged, else A becomes the quotient rounded toward zero,
narrowed (the wrap of the one overflowing quotient is decision D5, log entry 9).
The program counter at a stop is decision D11 (log entry 13). -/
def Obligations.DivTruncates : Prop :=
  (∀ c : Word, encode (.div c) = [5, c]) ∧
  (∀ (s : State) (r : Reg), s.reg r ≠ 0 → exec (.div r.cell) s =
    .next { s with pc := s.pc + 2, regs := s.regs.write .A (wrap32 (Int.tdiv (s.reg .A).toInt (s.reg r).toInt)) }) ∧
  (∀ (s : State) (r : Reg), s.reg r = 0 → exec (.div r.cell) s =
    .next { s with pc := s.pc + 2, status := .divByZero }) ∧
  (∀ (s : State) (c : Word), NoRegister c → RaisesIllegalOperand (.div c) s 2)

/-- R105. `inc r`: `x[r]` becomes `x[r] + 1`, narrowed (the wrap is decision D4, log entry 8).
The program counter at a stop is decision D11 (log entry 13). -/
def Obligations.IncAddsOne : Prop :=
  (∀ c : Word, encode (.inc c) = [6, c]) ∧
  (∀ (s : State) (r : Reg), exec (.inc r.cell) s =
    .next { s with pc := s.pc + 2, regs := s.regs.write r (wrap32 ((s.reg r).toInt + 1)) }) ∧
  (∀ (s : State) (c : Word), NoRegister c → RaisesIllegalOperand (.inc c) s 2)

/-- R106. `dec r`: `x[r]` becomes `x[r] - 1`, narrowed (the wrap is decision D4, log entry 8).
The program counter at a stop is decision D11 (log entry 13). -/
def Obligations.DecSubtractsOne : Prop :=
  (∀ c : Word, encode (.dec c) = [7, c]) ∧
  (∀ (s : State) (r : Reg), exec (.dec r.cell) s =
    .next { s with pc := s.pc + 2, regs := s.regs.write r (wrap32 ((s.reg r).toInt - 1)) }) ∧
  (∀ (s : State) (c : Word), NoRegister c → RaisesIllegalOperand (.dec c) s 2)

/-- `wrap32` of 00_scope.md's Notation, used by R100 (decision D4, log entry 8): the unique `int32` congruent to `z` modulo
2^32. -/
def Obligations.WrapIsTheCongruentInt32 : Prop :=
  ∀ (z : Int) (v : Word), wrap32 z = v ↔ ∃ k : Int, z = v.toInt + k * 2 ^ 32

/-- R100 (decision D5, log entry 9 for the one overflowing case): the quotient of two cells, rounded toward zero, fits in 32
bits for every divisor but zero, `-2^31 / -1` excepted, whose result is `-2^31`; the remainder is smaller than the divisor
and has the dividend's sign. -/
def Obligations.QuotientFitsButOnce : Prop :=
  ∀ a b : Word, b ≠ 0 →
    (a.toInt = -2 ^ 31 ∧ b.toInt = -1 → (wrap32 (Int.tdiv a.toInt b.toInt)).toInt = -2 ^ 31) ∧
    (¬ (a.toInt = -2 ^ 31 ∧ b.toInt = -1) → ∃ q r : Int,
      (wrap32 (Int.tdiv a.toInt b.toInt)).toInt = q ∧ a.toInt = q * b.toInt + r ∧ r.natAbs < b.toInt.natAbs ∧
      (0 ≤ a.toInt → 0 ≤ r) ∧ (a.toInt ≤ 0 → r ≤ 0))

/-! ### Moves -/

/-- R120. `movr r n`: the whole immediate cell goes to the register.
The program counter at a stop is decision D11 (log entry 13). -/
def Obligations.MovrWritesTheImmediate : Prop :=
  (∀ c n : Word, encode (.movr c n) = [9, c, n]) ∧
  (∀ (s : State) (r : Reg) (n : Word), exec (.movr r.cell n) s =
    .next { s with pc := s.pc + 3, regs := s.regs.write r n }) ∧
  (∀ (s : State) (c n : Word), NoRegister c → RaisesIllegalOperand (.movr c n) s 2)

/-- R121. `swap r1 r2`: the two values are exchanged; both operands are validated, in order, before either register
changes.
The program counter at a stop is decision D11 (log entry 13). -/
def Obligations.SwapExchanges : Prop :=
  (∀ c d : Word, encode (.swap c d) = [16, c, d]) ∧
  (∀ (s : State) (p q : Reg), ∃ x : Regs, exec (.swap p.cell q.cell) s = .next { s with pc := s.pc + 3, regs := x } ∧
    x.read p = s.reg q ∧ x.read q = s.reg p ∧ (∀ r, r ≠ p → r ≠ q → x.read r = s.reg r)) ∧
  (∀ (s : State) (c d : Word), NoRegister c → RaisesIllegalOperand (.swap c d) s 2) ∧
  (∀ (s : State) (p : Reg) (d : Word), NoRegister d → RaisesIllegalOperand (.swap p.cell d) s 3)

/-! ### Stack -/

/-- R130. `load r n`: with `EA = (SB - ssize) + D + n + 1` over unbounded integers (decision D13, log entry 15), a cell of the
used window goes to the register; any other `EA` raises INVALID_STACK_OPERATION.
The program counter at a stop is decision D11 (log entry 13). -/
def Obligations.LoadReadsTheUsedWindow : Prop :=
  (∀ c n : Word, encode (.load c n) = [10, c, n]) ∧
  (∀ (s : State) (r : Reg) (n : Word) (ea : Int), s.Inv →
    ea = (s.sb - s.ssize) + (s.reg .D).toInt + n.toInt + 1 →
    (s.sb - s.ssize + 1 ≤ ea ∧ ea ≤ s.sb →
      exec (.load r.cell n) s = .next { s with pc := s.pc + 3, regs := s.regs.write r (s.mem.read ea.toNat) }) ∧
    (¬ (s.sb - s.ssize + 1 ≤ ea ∧ ea ≤ s.sb) →
      exec (.load r.cell n) s = .next { s with pc := s.pc + 3, status := .invalidStackOperation })) ∧
  (∀ (s : State) (c n : Word), NoRegister c → RaisesIllegalOperand (.load c n) s 2)

/-- R131. `store r n`: the same address and window as `load`; one cell of the window becomes `x[r]`, every other cell is
unchanged.
The program counter at a stop is decision D11 (log entry 13). -/
def Obligations.StoreWritesTheUsedWindow : Prop :=
  (∀ c n : Word, encode (.store c n) = [11, c, n]) ∧
  (∀ (s : State) (r : Reg) (n : Word) (ea : Int), s.Inv →
    ea = (s.sb - s.ssize) + (s.reg .D).toInt + n.toInt + 1 →
    (s.sb - s.ssize + 1 ≤ ea ∧ ea ≤ s.sb →
      ∃ m : Memory, exec (.store r.cell n) s = .next { s with pc := s.pc + 3, mem := m } ∧
        ∀ a : Nat, m.read a = if (a : Int) = ea then s.reg r else s.mem.read a) ∧
    (¬ (s.sb - s.ssize + 1 ≤ ea ∧ ea ≤ s.sb) →
      exec (.store r.cell n) s = .next { s with pc := s.pc + 3, status := .invalidStackOperation })) ∧
  (∀ (s : State) (c n : Word), NoRegister c → RaisesIllegalOperand (.store c n) s 2)

/-- R132. `push r`: a full stack raises INVALID_STACK_OPERATION; else the next free slot `SB - ssize` becomes `x[r]` and
`ssize` grows by one.
The program counter at a stop is decision D11 (log entry 13). -/
def Obligations.PushFillsTheNextSlot : Prop :=
  (∀ c : Word, encode (.push c) = [17, c]) ∧
  (∀ (s : State) (r : Reg), s.Inv → s.ssize = s.params.cap →
    exec (.push r.cell) s = .next { s with pc := s.pc + 2, status := .invalidStackOperation }) ∧
  (∀ (s : State) (r : Reg), s.Inv → s.ssize ≠ s.params.cap →
    ∃ m : Memory, exec (.push r.cell) s = .next { s with pc := s.pc + 2, ssize := s.ssize + 1, mem := m } ∧
      ∀ a : Nat, m.read a = if (a : Int) = s.sb - s.ssize then s.reg r else s.mem.read a) ∧
  (∀ (s : State) (c : Word), NoRegister c → RaisesIllegalOperand (.push c) s 2)

/-- R133. `pop r`: an empty stack raises INVALID_STACK_OPERATION; else the former top goes to the register, `ssize` shrinks by
one and the freed slot is zero.
The program counter at a stop is decision D11 (log entry 13). -/
def Obligations.PopFreesTheTop : Prop :=
  (∀ c : Word, encode (.pop c) = [18, c]) ∧
  (∀ (s : State) (r : Reg), s.ssize = 0 →
    exec (.pop r.cell) s = .next { s with pc := s.pc + 2, status := .invalidStackOperation }) ∧
  (∀ (s : State) (r : Reg), s.Inv → s.ssize ≠ 0 →
    ∃ m : Memory, exec (.pop r.cell) s = .next { s with
        pc := s.pc + 2, ssize := s.ssize - 1, mem := m,
        regs := s.regs.write r (s.mem.read (s.sb - s.ssize + 1).toNat) } ∧
      ∀ a : Nat, m.read a = if (a : Int) = s.sb - s.ssize + 1 then 0 else s.mem.read a) ∧
  (∀ (s : State) (c : Word), NoRegister c → RaisesIllegalOperand (.pop c) s 2)

/-- R132: "`push` followed immediately by `pop` on the same register leaves `stack_size` unchanged and restores the original
register value"; in the model the two leave the whole state as it was but for the program counter. -/
def Obligations.PopUndoesPush : Prop :=
  ∀ (s : State) (r : Reg), s.Inv → s.ssize ≠ s.params.cap →
    ∃ t, exec (.push r.cell) s = .next t ∧ exec (.pop r.cell) t = .next { s with pc := s.pc + 2 + 2 }

/-- R37 (decision D13, log entry 15): the effective address is in the used window exactly when the offset `D + n`, formed
without wrap-around, is one of `0 .. ssize - 1`; with an empty stack it never is. -/
def Obligations.WindowIsAnOffsetRange : Prop :=
  ∀ (s : State) (n : Word),
    (s.inWindow (s.effAddr n) ↔ 0 ≤ (s.reg .D).toInt + n.toInt ∧ (s.reg .D).toInt + n.toInt ≤ (s.ssize : Int) - 1) ∧
    (s.ssize = 0 → ¬ s.inWindow (s.effAddr n))

/-! ### Input and output -/

/-- R151; the order of the two writes at end of input, visible when the target is C, is decision D14 (log entry 16), and the
answer where the environment has none ready is a free value (log entry 17). `in r` takes one answer of the decimal port:
an integer is written, a failed parse raises IO_ERROR, the end of input sets C to 0 and then the target to -1.
The program counter at a stop is decision D11 (log entry 13). -/
def Obligations.InTakesOneDecimalAnswer : Prop :=
  (∀ c : Word, encode (.in_ c) = [12, c]) ∧
  (∀ (s : State) (r : Reg), s.env.decAnswers →
    ∃ (a : DecAnswer) (t : State),
      (∀ b rest, s.env.decIn = b :: rest → a = b) ∧ (s.env.decIn = [] → a = Config.decAnswer s.env.decAsked) ∧
      t = { s with
        pc := s.pc + 2, env := { s.env with decIn := s.env.decIn.tail, decAsked := s.env.decAsked + 1 } } ∧
      exec (.in_ r.cell) s = .next (match a with
        | .int v => { t with regs := s.regs.write r v }
        | .parseFail => { t with status := .ioError }
        | .eof => { t with regs := (s.regs.write .C 0).write r (-1) })) ∧
  (∀ (s : State) (c : Word), NoRegister c → RaisesIllegalOperand (.in_ c) s 2)

/-- R152; the zero extension is decision D26 (log entry 20), the order of writes at end of input decision D14 (log entry 16),
and the answer where none is ready a free value (log entry 17). `get r` takes one answer of the byte port.
The program counter at a stop is decision D11 (log entry 13). -/
def Obligations.GetTakesOneByteAnswer : Prop :=
  (∀ c : Word, encode (.get c) = [13, c]) ∧
  (∀ (s : State) (r : Reg), s.env.byteAnswers →
    ∃ (a : ByteAnswer) (t : State),
      (∀ b rest, s.env.byteIn = b :: rest → a = b) ∧ (s.env.byteIn = [] → a = Config.byteAnswer s.env.byteAsked) ∧
      t = { s with
        pc := s.pc + 2, env := { s.env with byteIn := s.env.byteIn.tail, byteAsked := s.env.byteAsked + 1 } } ∧
      exec (.get r.cell) s = .next (match a with
        | .byte b => { t with regs := s.regs.write r (BitVec.ofNat 32 b.toNat) }
        | .eof => { t with regs := (s.regs.write .C 0).write r (-1) })) ∧
  (∀ (s : State) (c : Word), NoRegister c → RaisesIllegalOperand (.get c) s 2)

/-- R153. `out r` appends the decimal event of `x[r]` to the sink.
The program counter at a stop is decision D11 (log entry 13). -/
def Obligations.OutAppendsADecimal : Prop :=
  (∀ c : Word, encode (.out c) = [14, c]) ∧
  (∀ (s : State) (r : Reg), exec (.out r.cell) s =
    .next { s with pc := s.pc + 2, env := { s.env with sink := s.env.sink ++ [.dec (s.reg r)] } }) ∧
  (∀ (s : State) (c : Word), NoRegister c → RaisesIllegalOperand (.out c) s 2)

/-- R154. `put r` appends the byte event of `x[r]` where the register's value is one of 0..255; else ILLEGAL_OPERAND and
nothing is written.
The program counter at a stop is decision D11 (log entry 13). -/
def Obligations.PutAppendsAByte : Prop :=
  (∀ c : Word, encode (.put c) = [15, c]) ∧
  (∀ (s : State) (r : Reg), 0 ≤ (s.reg r).toInt → (s.reg r).toInt ≤ 255 → ∃ b : Byte,
    (b.toNat : Int) = (s.reg r).toInt ∧ exec (.put r.cell) s =
      .next { s with pc := s.pc + 2, env := { s.env with sink := s.env.sink ++ [.byte b] } }) ∧
  (∀ (s : State) (r : Reg), ¬ (0 ≤ (s.reg r).toInt ∧ (s.reg r).toInt ≤ 255) → RaisesIllegalOperand (.put r.cell) s 2) ∧
  (∀ (s : State) (c : Word), NoRegister c → RaisesIllegalOperand (.put c) s 2)

/-- R81 and U14 (log entry 18): an input instruction whose port withholds its answer is held after its operand was
validated; only the environment's answer lifts the hold, and the instruction then completes with that answer. -/
def Obligations.WithheldInputHolds : Prop :=
  (∀ (s : State) (r : Reg), s.env.decIn = [] → s.env.decHeld = true → exec (.in_ r.cell) s = .fault .inputHold ∧
    ∀ v, exec (.in_ r.cell) (s.offerDec (.int v)) =
      .next { s with pc := s.pc + 2, regs := s.regs.write r v, env := { s.env with decAsked := s.env.decAsked + 1 } }) ∧
  (∀ (s : State) (r : Reg), s.env.byteIn = [] → s.env.byteHeld = true → exec (.get r.cell) s = .fault .inputHold ∧
    ∀ b, exec (.get r.cell) (s.offerByte (.byte b)) =
      .next { s with
        pc := s.pc + 2, regs := s.regs.write r (BitVec.ofNat 32 b.toNat),
        env := { s.env with byteAsked := s.env.byteAsked + 1 } })

/-- R150 (decision D16, log entry 19): the text of `OutDec(v)` is the shortest signed decimal numeral of `v`: a `-` exactly
when `v` is negative, then digits without a leading zero whose value is the magnitude of `v`. -/
def Obligations.DecimalTextIsShortest : Prop :=
  ∀ v : Word, ∃ ds : List Nat, ds ≠ [] ∧ (∀ d ∈ ds, d < 10) ∧ (ds.head? = some 0 → ds = [0]) ∧
    ds.foldl (fun acc d => 10 * acc + d) 0 = v.toInt.natAbs ∧
    decText v = (if v.toInt < 0 then [45] else []) ++ ds.map fun d => BitVec.ofNat 8 (48 + d)

/-! ### The engine -/

/-- R71 to R74: when the cells at the program counter decode to `i`, a runnable CORE's step is the meaning of `i` at that
state; the step adds nothing around it, since a meaning moves the program counter itself (log entry 31). -/
def Obligations.StepRunsTheDecodedInstruction : Prop :=
  ∀ (s : State) (i : Instr) (rest : List Word), s.status = .ok → s.pcInRegion →
    decode s.fetchCells = .instr i rest → step s = exec i s

/-- R50, R71, R74: when the cells from the program counter on hold the encoding of `i`, the step is the meaning of `i`,
whatever lies after it. -/
def Obligations.StepRunsTheEncodedInstruction : Prop :=
  ∀ (s : State) (i : Instr), s.status = .ok → s.pcInRegion →
    (∀ (j : Nat) (w : Word), (encode i)[j]? = some w →
      s.pc.toInt.toNat + j < s.params.n ∧ s.mem.read (s.pc.toInt.toNat + j) = w) →
    step s = exec i s

/-- R77, R16. A stopped CORE, by `halt` or by an error, performs no further mutation under `step` or `run` and reports no
progress. -/
def Obligations.StoppedCoreIsInert : Prop :=
  ∀ s : State, s.status ≠ .ok → step s = .next s ∧ progressed s = false ∧ ∀ m, run m s = .next (0, s)

/-- R174. INVALID_ADDRESS is raised exactly when the program counter is below 0 or above `ST - 1` at the start of a step, and
changes nothing but the status.
That the program counter is left unchanged is decision D9 (log entry 13). -/
def Obligations.InvalidAddressIsThePcCheck : Prop :=
  ∀ s : State, s.status = .ok →
    ((s.pc.toInt < 0 ∨ s.st - 1 < s.pc.toInt) → step s = .next { s with status := .invalidAddress }) ∧
    (∀ t, step s = .next t → t.status = .invalidAddress → s.pc.toInt < 0 ∨ s.st - 1 < s.pc.toInt)

/-- R172. ILLEGAL_INSTRUCTION is raised exactly when the program counter is in range and the cell there is below 0 or above
18, and changes nothing but the status.
That the program counter is left unchanged is decision D9 (log entry 13). -/
def Obligations.IllegalInstructionIsTheOpcodeCheck : Prop :=
  ∀ s : State, s.Inv → s.status = .ok →
    (s.pcInRegion → (s.mem.read s.pc.toInt.toNat).toInt < 0 ∨ 18 < (s.mem.read s.pc.toInt.toNat).toInt →
      step s = .next { s with status := .illegalInstruction }) ∧
    (∀ t, step s = .next t → t.status = .illegalInstruction → s.pcInRegion ∧
      ((s.mem.read s.pc.toInt.toNat).toInt < 0 ∨ 18 < (s.mem.read s.pc.toInt.toNat).toInt))

/-- R173: an instruction raises ILLEGAL_OPERAND exactly when one of its register operands is no register id or it is a `put` of
a value that is no byte; status and program counter alone change. -/
def Obligations.IllegalOperandHasTwoCauses : Prop :=
  ∀ (i : Instr) (s t : State), s.status = .ok → exec i s = .next t →
    (t.status = .illegalOperand ↔
      (∃ c ∈ i.regCells, NoRegister c) ∨
      ∃ r : Reg, i = .put r.cell ∧ ¬ (0 ≤ (s.reg r).toInt ∧ (s.reg r).toInt ≤ 255)) ∧
    (t.status = .illegalOperand → t = { s with pc := t.pc, status := .illegalOperand })

/-- R175: an instruction raises INVALID_STACK_OPERATION exactly when it is a `push` on a full stack, a `pop` on an empty one, or
a `load` or `store` whose effective address is outside the used window; status and program counter alone change. -/
def Obligations.InvalidStackOperationHasThreeCauses : Prop :=
  ∀ (i : Instr) (s t : State), s.Inv → s.status = .ok → exec i s = .next t →
    (t.status = .invalidStackOperation ↔
      ∃ r : Reg, (i = .push r.cell ∧ s.ssize = s.params.cap) ∨ (i = .pop r.cell ∧ s.ssize = 0) ∨
        ∃ n : Word, (i = .load r.cell n ∨ i = .store r.cell n) ∧ ¬ s.inWindow (s.effAddr n)) ∧
    (t.status = .invalidStackOperation → t = { s with pc := t.pc, status := .invalidStackOperation })

/-- R171, R176, R177: HALTED comes only from `halt`, DIV_BY_ZERO only from `div` with a zero divisor register, IO_ERROR only
from `in` on a failed parse; the two errors change the status, the program counter and, for IO_ERROR, what the environment
has consumed. -/
def Obligations.OtherStopsHaveOneCause : Prop :=
  ∀ (i : Instr) (s t : State), s.status = .ok → exec i s = .next t →
    (t.status = .halted ↔ i = .halt) ∧
    (t.status = .divByZero ↔ ∃ r : Reg, i = .div r.cell ∧ s.reg r = 0) ∧
    (t.status = .ioError ↔ ∃ (r : Reg) (e : Env), i = .in_ r.cell ∧ s.env.askDec = some (.parseFail, e)) ∧
    (t.status = .divByZero → t = { s with pc := t.pc, status := .divByZero }) ∧
    (t.status = .ioError → t = { s with pc := t.pc, status := .ioError, env := t.env })

/-- R181 (the program counter's values there are decisions D9 to D11, log entry 13): every step that ends in an error has
changed no register, not `ssize`, no memory and no output; the one trace outside the CORE is the answer a failed `in` has
taken. -/
def Obligations.ErrorStopsArePrecise : Prop :=
  ∀ s t : State, s.status = .ok → step s = .next t → t.status.isError = true →
    t = { s with pc := t.pc, status := t.status, env := t.env } ∧ t.env.sink = s.env.sink ∧
    (t.status ≠ .ioError → t.env = s.env)

/-- R35, R72 (decision D12, log entry 14): where the opcode asks for an operand cell at an index of `N` or more, the step is
refused; but a first register operand that is no register id raises ILLEGAL_OPERAND before the missing cell is read.
The program counter at the ILLEGAL_OPERAND stop is decision D11 (R181's table, log entry 13). -/
def Obligations.OperandBeyondMemoryIsRefused : Prop :=
  ∀ (s : State) (p : Nat), s.Inv → s.status = .ok → s.pcInRegion → s.pc.toInt = (p : Int) →
    (∀ op : Int, (s.mem.read p).toInt = op → 2 ≤ op → op ≤ 18 → p + 1 = s.params.n →
      step s = .refused .operandFetchOutsideMemory) ∧
    (∀ op : Int, (s.mem.read p).toInt = op → op = 9 ∨ op = 10 ∨ op = 11 ∨ op = 16 → p + 2 = s.params.n →
      (NoRegister (s.mem.read (p + 1)) → step s = .next { s with pc := s.pc + 2, status := .illegalOperand }) ∧
      (¬ NoRegister (s.mem.read (p + 1)) → step s = .refused .operandFetchOutsideMemory))

/-- R35, R81: from every state that meets the invariant, with a capacity of at least two cells and an environment that
answers, a step has a next state. -/
def Obligations.StepAlwaysCompletes : Prop :=
  ∀ s : State, s.Inv → 2 ≤ s.params.cap → s.env.decAnswers → s.env.byteAnswers → ∃ t, step s = .next t

/-- R75: a step reports progress exactly when it started in status OK and left the status OK. -/
def Obligations.ProgressIsStayingRunnable : Prop :=
  ∀ s t : State, step s = .next t → (progressed s = true ↔ s.status = .ok ∧ t.status = .ok)

/-! ### Frames (R76) -/

/-- R12, R76: an instruction leaves every register alone but those R12 names for it. -/
def Obligations.InstructionsWriteOnlyTheirRegisters : Prop :=
  ∀ (i : Instr) (s t : State) (q : Reg), exec i s = .next t → ¬ mayWrite i q → t.reg q = s.reg q

/-- R76: an instruction other than `push`, `pop` and `store` leaves every memory cell alone, and those three every cell but
the one at the address their meaning computes. -/
def Obligations.InstructionsStoreOnlyAtTheirAddress : Prop :=
  ∀ (i : Instr) (s t : State), exec i s = .next t →
    (storeAddress i s = none → ∀ a : Nat, t.mem.read a = s.mem.read a) ∧
    (∀ ea : Int, storeAddress i s = some ea → ∀ a : Nat, (a : Int) ≠ ea → t.mem.read a = s.mem.read a)

/-- R17, R76: only `push` and `pop` change `ssize`, by one up and one down. -/
def Obligations.OnlyPushAndPopResizeTheStack : Prop :=
  ∀ (i : Instr) (s t : State), exec i s = .next t →
    t.ssize = s.ssize ∨ (∃ c, i = .push c ∧ t.ssize = s.ssize + 1) ∨ ∃ c, i = .pop c ∧ t.ssize + 1 = s.ssize

/-- R76, R155: only `in` and `get` take input and only `out` and `put` write output; every other instruction leaves the
environment alone. -/
def Obligations.OnlyPortInstructionsTouchTheEnvironment : Prop :=
  ∀ (i : Instr) (s t : State), exec i s = .next t →
    ((∀ c, i ≠ .in_ c) → t.env.decIn = s.env.decIn ∧ t.env.decAsked = s.env.decAsked) ∧
    ((∀ c, i ≠ .get c) → t.env.byteIn = s.env.byteIn ∧ t.env.byteAsked = s.env.byteAsked) ∧
    ((∀ c, i ≠ .out c) → (∀ c, i ≠ .put c) → t.env.sink = s.env.sink) ∧
    t.env.decHeld = s.env.decHeld ∧ t.env.byteHeld = s.env.byteHeld

/-- R46, R18: nothing in the life of an instance, no step and no reset, changes `SB`, `ST`, `N`, `K`, `CAP` or the byte
order.
That `SB` and `ST` survive reset is decision D18 (R18, R204, log entry 23), the byte order is R4's and R38's parameter, and
that the parameters stand in the state is log entry 2 (DESIGN CHOICE). -/
def Obligations.LayoutIsFixedForLife : Prop :=
  ∀ c s : State, Reach c s →
    s.sb = c.sb ∧ s.st = c.st ∧ s.params.n = c.params.n ∧ s.params.k = c.params.k ∧ s.params.cap = c.params.cap ∧
    s.params.order = c.params.order

/-! ### Invariants -/

/-- R24: the state after reset meets the invariant. -/
def Obligations.ResetMeetsTheInvariant : Prop := State.reset.Inv

/-- R24: every step keeps the invariant: the stack size within the capacity, the layout, the gap cells and the unused stack
cells zero, and the memory's canonical form. -/
def Obligations.StepKeepsTheInvariant : Prop :=
  ∀ s t : State, s.Inv → step s = .next t → t.Inv

/-- R27, R44 and (I-c) of R24: in the whole life of an instance no cell outside the stack region changes, so the cells
opcodes are fetched from are read-only. -/
def Obligations.FetchRegionIsReadOnly : Prop :=
  ∀ c s : State, c.Inv → Reach c s → ∀ a : Nat, ¬ c.inStackRegion a → s.mem.read a = c.mem.read a

/-- R203, with R24 (I-c) and (I-d): the warm reset zeroes the used window, the registers, the program counter and the stack
size, sets the status OK and keeps all else; after any life of a created instance it gives back the state after create, but
for the environment; neither a step nor a host's register write leaves a stop.
That `SB` and `ST` are kept is decision D18 (R204, log entry 23), that the environment is kept is derived in R23 (log entry 33,
DEDUCED), and that only the reset leaves a stop rests on R16 and R12 too. -/
def Obligations.WarmResetRestoresTheCreatedState : Prop :=
  (∀ s : State, ∃ m : Memory, s.warmReset =
      { s with regs := ⟨0, 0, 0, 0⟩, status := .ok, pc := 0, ssize := 0, mem := m } ∧
    ∀ a : Nat, m.read a = if s.sb - s.ssize + 1 ≤ (a : Int) ∧ (a : Int) ≤ s.sb then 0 else s.mem.read a) ∧
  (∀ c s : State, c.Fresh → Reach c s → s.warmReset = { c with env := s.env }) ∧
  (∀ s t : State, s.status ≠ .ok → (step s = .next t ∨ ∃ id v, setRegister id v s = .next t) → t.status = s.status)

/-! ### Encoding -/

/-- R50, R51, R55: decoding the encoding of an instruction gives it back with what follows it, for every operand cell, through
the bytes of the program binary in either byte order (R38) as well. -/
def Obligations.DecodeInvertsEncode : Prop :=
  ∀ (i : Instr) (rest : List Word) (order : ByteOrder),
    decode (encode i ++ rest) = .instr i rest ∧
    (cellsOfBytes order (bytesOfCells order (encode i ++ rest))).map decode = some (.instr i rest)

/-- R52, R56: only the encoding of an instruction decodes to it: every cell is compared and kept whole. -/
def Obligations.OnlyTheEncodingDecodes : Prop :=
  ∀ (cs rest : List Word) (i : Instr), decode cs = .instr i rest → cs = encode i ++ rest

/-- R57, R52: the decoder rejects an opcode cell exactly when its whole signed value is outside 0..18. -/
def Obligations.OpcodesOutsideTheMapAreIllegal : Prop :=
  ∀ (op : Word) (rest : List Word), decode (op :: rest) = .illegalOpcode op ↔ ¬ (0 ≤ op.toInt ∧ op.toInt ≤ 18)

/-- R55 and the encodings of 95_test_vectors.md: some words written out from the opcode map decode to what they stand for. -/
def Obligations.SampleWordsDecode : Prop :=
  decode [0] = .instr .nop [] ∧ decode [8, 7] = .instr (.loop 7) [] ∧ decode [2, 1] = .instr (.add 1) [] ∧
  decode [9, 0, 5] = .instr (.movr 0 5) [] ∧ decode [16, 0, 3] = .instr (.swap 0 3) [] ∧
  decode [11, 0, -1] = .instr (.store 0 (-1)) [] ∧ decode [12, 0] = .instr (.in_ 0) [] ∧
  decode [258] = .illegalOpcode 258 ∧ decode [-1] = .illegalOpcode (-1) ∧ decode [19] = .illegalOpcode 19

/-- R38 (the order itself is the parameter of decision D6, log entry 10): four bytes of the binary become the cell R38
computes. -/
def Obligations.BytesBecomeCells : Prop :=
  ∀ b0 b1 b2 b3 : Byte,
    (∀ u : Nat, u = b0.toNat + 2 ^ 8 * b1.toNat + 2 ^ 16 * b2.toNat + 2 ^ 24 * b3.toNat →
      (cellOfBytes .little b0 b1 b2 b3).toInt = if u < 2 ^ 31 then (u : Int) else (u : Int) - 2 ^ 32) ∧
    (∀ u : Nat, u = b3.toNat + 2 ^ 8 * b2.toNat + 2 ^ 16 * b1.toNat + 2 ^ 24 * b0.toNat →
      (cellOfBytes .big b0 b1 b2 b3).toInt = if u < 2 ^ 31 then (u : Int) else (u : Int) - 2 ^ 32)

/-! ### Load, create and the host's calls -/

/-- R201 and R202 (decisions D24, D32, treatment U8; log entry 26): a binary whose length is no multiple of four fails to
load, whatever else is asked; a negative capacity is refused; `create` with a bottom index or a capacity other than the
load's is refused. -/
def Obligations.BadLoadsAndCreatesAreRefused : Prop :=
  (∀ (order : ByteOrder) (bytes : List Byte) (cap : Int) (n : Nat), bytes.length % 4 ≠ 0 →
    load order bytes cap n = .refused .loadFailed) ∧
  (∀ (order : ByteOrder) (cs : List Word) (cap : Int) (n : Nat), cap < 0 →
    load order (bytesOfCells order cs) cap n = .refused .layoutRefused) ∧
  (∀ (img : Image) (sb cap : Int) (env : Env), sb ≠ img.sb ∨ cap ≠ img.params.cap →
    create img sb cap env = .refused .layoutRefused)

/-- R25, R200, R202 (`N` is the parameter of decision D7, log entry 11): a binary of `K` cells loads for every admissible `CAP`
and `N`, and `create` then gives the reset values: registers 0, program counter 0, status OK, stack size 0, `SB = N - 1`,
`ST = N - CAP`, the program cells in file order from cell 0 and every other cell 0. -/
def Obligations.CreateGivesTheResetValues : Prop :=
  ∀ (order : ByteOrder) (cs : List Word) (cap n : Nat) (env : Env), cs.length + cap ≤ n → n ≤ Config.maxCells →
    ∃ (img : Image) (s : State), load order (bytesOfCells order cs) cap n = .next img ∧
      create img img.sb cap env = .next s ∧ s.Fresh ∧
      s.regs = ⟨0, 0, 0, 0⟩ ∧ s.pc = 0 ∧ s.status = .ok ∧ s.ssize = 0 ∧ s.sb = (n : Int) - 1 ∧ s.st = (n : Int) - cap ∧
      s.params = ⟨cs.length, cap, n, order⟩ ∧ s.env = env ∧ ∀ a : Nat, s.mem.read a = cs.getD a 0

/-- R25 with the model's parameters (log entry 3): `State.reset` is what loading an empty binary with capacity 256 into 65536
cells and creating the CPU gives. -/
def Obligations.ResetIsLoadThenCreate : Prop :=
  ∃ img : Image, load .little [] 256 65536 = .next img ∧ create img img.sb 256 Env.fresh = .next State.reset

/-- R78. `Run` steps a runnable CORE up to `max_steps` times or until it stops, and returns the number of steps attempted,
negated exactly when it stopped on an error; a stopped CORE gives 0. It returns whenever the steps it makes complete.
That the budget is an `int32` and a negative one runs no step is decision D19 (R79), that the stopping step is counted decision
D33, and that a run with a held or refused step gives no count is DEDUCED (all three in log entry 24). -/
def Obligations.RunCountsAttemptedSteps : Prop :=
  (∀ (m : Word) (s : State), s.status ≠ .ok → run m s = .next (0, s)) ∧
  (∀ (m : Word) (s t : State) (c : Int), s.status = .ok → run m s = .next (c, t) →
    ∃ k : Nat, k ≤ m.toInt.toNat ∧ steps k s = .next t ∧
      (∀ j, j < k → ∃ u : State, steps j s = .next u ∧ u.status = .ok) ∧
      (t.status = .ok → k = m.toInt.toNat) ∧
      (t.status = .ok ∨ t.status = .halted → c = (k : Int)) ∧
      (t.status ≠ .ok → t.status ≠ .halted → c = -(k : Int))) ∧
  (∀ (m : Word) (s : State), (∀ (k : Nat) (u : State), k < m.toInt.toNat → steps k s = .next u → ∃ t, step u = .next t) →
    ∃ (c : Int) (t : State), run m s = .next (c, t))

/-- R79 (a), (b), (d) (a negative budget is decision D19, log entry 24): a budget of zero or less changes nothing and returns
0; a run whose budget ran out in status OK returns that budget, and a later run continues from where it stopped: the two
together are one run with the sum of the budgets. -/
def Obligations.RunResumesWhereItStopped : Prop :=
  (∀ (m : Word) (s : State), m.toInt ≤ 0 → run m s = .next (0, s)) ∧
  (∀ (m k both : Word) (s t u : State) (c d : Int), 0 ≤ m.toInt → 0 ≤ k.toInt → both.toInt = m.toInt + k.toInt →
    run m s = .next (c, t) → t.status = .ok → run k t = .next (d, u) →
    c = m.toInt ∧ run both s = .next (if u.status.isError then d - c else d + c, u))

/-- R12 (an id outside 0..3 is refused by decision D21, log entry 25): the host reads and writes the register an id of 0..3
names, in any status, and nothing else. -/
def Obligations.HostReachesRegistersByTheirId : Prop :=
  (∀ (s : State) (r : Reg) (v : Word),
    getRegister r.cell.toInt s = .next (s.reg r) ∧
    setRegister r.cell.toInt v s = .next { s with regs := s.regs.write r v }) ∧
  (∀ (s : State) (id : Int) (v : Word), ¬ (0 ≤ id ∧ id ≤ 3) →
    getRegister id s = .refused .registerIdRefused ∧ setRegister id v s = .refused .registerIdRefused)

/-- R23, R150: the sink is one ordered sequence: a step appends at most one event to it, changes no earlier one, and does the
same whatever was written before.
The second part compares two runs: that an answer of an input port does not depend on what was written is the model's form of
the environment (log entry 17, DESIGN CHOICE; the ports: decision D15), while R23 and R150 leave the answers to an oracle. -/
def Obligations.StepOnlyAppendsToTheSink : Prop :=
  ∀ (s t : State) (sink : List OutEvent), step s = .next t →
    ∃ new : List OutEvent, new.length ≤ 1 ∧ t.env.sink = s.env.sink ++ new ∧
      step (s.withSink sink) = .next (t.withSink (sink ++ new))
end

