-- ==== Sys2Proof/Laws/Memory.lean ====
section
/-! SUPPORT. The memory: every operation keeps the canonical form, and reads after writes. -/

namespace Sys2Proof.Machine

/-- Writing a cell lists no index below both the written one and the old ones. -/
theorem Memory.write_keys_gt (m : Memory) (a : Nat) (v : Word) (b : Nat) (hab : b < a)
    (hm : ∀ p ∈ m, b < p.1) : ∀ p ∈ m.write a v, b < p.1 := by
  induction m with
  | nil =>
    intro p hp
    simp only [Memory.write] at hp
    split at hp <;> simp_all
  | cons q m ih =>
    obtain ⟨c, w⟩ := q
    have hc : b < c := hm (c, w) (by simp)
    have hm' : ∀ p ∈ m, b < p.1 := fun p hp => hm p (by simp [hp])
    intro p hp
    simp only [Memory.write] at hp
    split at hp
    · split at hp
      · exact hm p hp
      · rcases List.mem_cons.mp hp with rfl | hp
        · exact hab
        · exact hm p hp
    · split at hp
      · split at hp
        · exact hm' p hp
        · rcases List.mem_cons.mp hp with rfl | hp
          · exact hab
          · exact hm' p hp
      · rcases List.mem_cons.mp hp with rfl | hp
        · exact hc
        · exact ih hm' p hp

/-- A write keeps the canonical form. -/
theorem Memory.wf_write (m : Memory) (a : Nat) (v : Word) (h : m.wf) : (m.write a v).wf := by
  induction m with
  | nil =>
    unfold Memory.write
    split
    · exact h
    · next hv => exact ⟨by simp, by simpa using hv⟩
  | cons q m ih =>
    obtain ⟨c, w⟩ := q
    obtain ⟨hs, hz⟩ := h
    rw [List.pairwise_cons] at hs
    have hm : Memory.wf m := ⟨hs.2, fun p hp => hz p (by simp [hp])⟩
    have hw : w ≠ 0 := hz (c, w) (by simp)
    unfold Memory.write
    split
    · next hac =>
      split
      · exact ⟨List.pairwise_cons.mpr hs, hz⟩
      · next hv =>
        refine ⟨List.pairwise_cons.mpr ⟨?_, List.pairwise_cons.mpr hs⟩, ?_⟩
        · intro p hp
          rcases List.mem_cons.mp hp with rfl | hp
          · exact hac
          · exact lt_trans hac (hs.1 p hp)
        · intro p hp
          rcases List.mem_cons.mp hp with rfl | hp
          · exact hv
          · exact hz p hp
    · next hac =>
      split
      · next hEq =>
        subst hEq
        split
        · exact hm
        · next hv =>
          refine ⟨List.pairwise_cons.mpr ⟨hs.1, hs.2⟩, ?_⟩
          intro p hp
          rcases List.mem_cons.mp hp with rfl | hp
          · exact hv
          · exact hz p (by simp [hp])
      · next hne =>
        obtain ⟨ihs, ihz⟩ := ih hm
        refine ⟨List.pairwise_cons.mpr ⟨?_, ihs⟩, ?_⟩
        · exact Memory.write_keys_gt m a v c (by omega) hs.1
        · intro p hp
          rcases List.mem_cons.mp hp with rfl | hp
          · exact hw
          · exact ihz p hp

/-- Clearing a range keeps the canonical form. -/
theorem Memory.wf_clear (m : Memory) (lo hi : Int) (h : m.wf) : (m.clear lo hi).wf :=
  ⟨h.1.filter _, fun p hp => h.2 p (List.mem_of_mem_filter hp)⟩

/-- Writing cells one after another keeps the canonical form. -/
theorem Memory.wf_writeAll (m : Memory) (a : Nat) (cs : List Word) (h : m.wf) : (m.writeAll a cs).wf := by
  induction cs generalizing m a with
  | nil => exact h
  | cons c cs ih => exact ih _ _ (Memory.wf_write m a c h)

/-- The memory of `State.reset` is in canonical form. -/
theorem Memory.wf_reset : State.reset.mem.wf := ⟨List.Pairwise.nil, by simp [State.reset]⟩

/-- An index below every listed one reads as zero. -/
theorem Memory.read_eq_zero_of_lt (m : Memory) (a : Nat) (h : ∀ p ∈ m, a < p.1) : m.read a = 0 := by
  induction m with
  | nil => rfl
  | cons q m ih =>
    obtain ⟨c, w⟩ := q
    have hc : a < c := h (c, w) (by simp)
    rw [Memory.read, if_neg (by omega)]
    exact ih fun p hp => h p (by simp [hp])

/-- A write leaves every other cell alone. -/
theorem Memory.read_write_ne (m : Memory) (a c : Nat) (v : Word) (h : c ≠ a) : (m.write a v).read c = m.read c := by
  induction m with
  | nil =>
    unfold Memory.write
    split <;> simp [Memory.read, h]
  | cons q m ih =>
    obtain ⟨b, w⟩ := q
    unfold Memory.write
    split
    · split
      · rfl
      · simp [Memory.read, h]
    · split
      · next hEq =>
        subst hEq
        split <;> simp [Memory.read, h]
      · simp [Memory.read, ih]

/-- A read of the cell just written gives the value, in a memory in canonical form. -/
theorem Memory.read_write_self (m : Memory) (a : Nat) (v : Word) (h : m.wf) : (m.write a v).read a = v := by
  induction m with
  | nil =>
    unfold Memory.write
    split
    · next hv => simp [Memory.read, hv]
    · simp [Memory.read]
  | cons q m ih =>
    obtain ⟨b, w⟩ := q
    have hs := List.pairwise_cons.mp h.1
    have hm : Memory.wf m := ⟨hs.2, fun p hp => h.2 p (by simp [hp])⟩
    unfold Memory.write
    split
    · next hab =>
      split
      · next hv =>
        rw [Memory.read_eq_zero_of_lt _ a, hv]
        intro p hp
        rcases List.mem_cons.mp hp with rfl | hp
        · exact hab
        · exact lt_trans hab (hs.1 p hp)
      · simp [Memory.read]
    · split
      · next hEq =>
        subst hEq
        split
        · next hv => rw [Memory.read_eq_zero_of_lt _ a hs.1, hv]
        · simp [Memory.read]
      · next hne => simp [Memory.read, hne, ih hm]

/-- A read after a write (R42). -/
theorem Memory.read_write (m : Memory) (a c : Nat) (v : Word) (h : m.wf) :
    (m.write a v).read c = if c = a then v else m.read c := by
  split
  · next hca => subst hca; exact Memory.read_write_self m c v h
  · next hca => exact Memory.read_write_ne m a c v hca

/-- Two memories in canonical form that read alike at every index are the same data. -/
theorem Memory.ext_read (m n : Memory) (hm : m.wf) (hn : n.wf) (h : ∀ a, m.read a = n.read a) : m = n := by
  induction m generalizing n with
  | nil =>
    cases n with
    | nil => rfl
    | cons q n =>
      obtain ⟨b, w⟩ := q
      have := h b
      simp only [Memory.read, if_true] at this
      exact absurd this.symm (hn.2 (b, w) (by simp))
  | cons p m ih =>
    obtain ⟨a, v⟩ := p
    have hms := List.pairwise_cons.mp hm.1
    have hv : v ≠ 0 := hm.2 (a, v) (by simp)
    cases n with
    | nil =>
      have := h a
      simp only [Memory.read, if_true] at this
      exact absurd this hv
    | cons q n =>
      obtain ⟨b, w⟩ := q
      have hns := List.pairwise_cons.mp hn.1
      have hw : w ≠ 0 := hn.2 (b, w) (by simp)
      have hab : a = b := by
        rcases lt_trichotomy a b with hlt | heq | hgt
        · have ha := h a
          rw [Memory.read_eq_zero_of_lt ((b, w) :: n) a (by
            intro r hr
            rcases List.mem_cons.mp hr with rfl | hr
            · exact hlt
            · exact lt_trans hlt (hns.1 r hr))] at ha
          simp only [Memory.read, if_true] at ha
          exact absurd ha hv
        · exact heq
        · have hb := h b
          rw [Memory.read_eq_zero_of_lt ((a, v) :: m) b (by
            intro r hr
            rcases List.mem_cons.mp hr with rfl | hr
            · exact hgt
            · exact lt_trans hgt (hms.1 r hr))] at hb
          simp only [Memory.read, if_true] at hb
          exact absurd hb.symm hw
      subst hab
      have hvw : v = w := by simpa [Memory.read] using h a
      subst hvw
      have hrest : m = n := by
        refine ih n ⟨hms.2, fun p hp => hm.2 p (by simp [hp])⟩ ⟨hns.2, fun p hp => hn.2 p (by simp [hp])⟩ ?_
        intro c
        by_cases hc : c = a
        · subst hc
          rw [Memory.read_eq_zero_of_lt m c hms.1, Memory.read_eq_zero_of_lt n c hns.1]
        · simpa [Memory.read, hc] using h c
      rw [hrest]

/-- A write lists no index but the written one and the old ones. -/
theorem Memory.mem_write (m : Memory) (a : Nat) (v : Word) (p : Nat × Word) (h : p ∈ m.write a v) :
    p.1 = a ∨ p ∈ m := by
  induction m with
  | nil =>
    simp only [Memory.write] at h
    split at h <;> simp_all
  | cons q m ih =>
    obtain ⟨b, w⟩ := q
    simp only [Memory.write] at h
    split at h
    · split at h
      · exact .inr h
      · rcases List.mem_cons.mp h with rfl | h
        · exact .inl rfl
        · exact .inr h
    · split at h
      · split at h
        · exact .inr (by simp [h])
        · rcases List.mem_cons.mp h with rfl | h
          · exact .inl rfl
          · exact .inr (by simp [h])
      · rcases List.mem_cons.mp h with rfl | h
        · exact .inr (by simp)
        · rcases ih h with h | h
          · exact .inl h
          · exact .inr (by simp [h])

/-- A cleared range reads as zero and every other cell is left alone. -/
theorem Memory.read_clear (m : Memory) (lo hi : Int) (a : Nat) :
    (m.clear lo hi).read a = if lo ≤ (a : Int) ∧ (a : Int) ≤ hi then 0 else m.read a := by
  induction m with
  | nil => simp [Memory.clear, Memory.read]
  | cons q m ih =>
    obtain ⟨b, w⟩ := q
    unfold Memory.clear at ih ⊢
    rw [List.filter_cons]
    by_cases hb : lo ≤ (b : Int) ∧ (b : Int) ≤ hi
    · simp only [hb, and_self, decide_true, Bool.not_true, Bool.false_eq_true, if_false, ih, Memory.read]
      by_cases hab : a = b
      · subst hab; simp [hb]
      · simp [hab]
    · simp only [hb, decide_false, Bool.not_false, if_true, Memory.read, ih]
      by_cases hab : a = b
      · subst hab; simp [hb]
      · simp [hab]

end Sys2Proof.Machine
end

