-- ==== Sys2Proof/Laws/State.lean ====
section
/-! SUPPORT. One lemma per field of State per update, and the register file's read-after-write laws. -/

namespace Sys2Proof.Machine

@[simp] theorem State.setReg_regs (s : State) (r : Reg) (v : Word) : (s.setReg r v).regs = s.regs.write r v := rfl
@[simp] theorem State.setReg_pc (s : State) (r : Reg) (v : Word) : (s.setReg r v).pc = s.pc := rfl
@[simp] theorem State.setReg_status (s : State) (r : Reg) (v : Word) : (s.setReg r v).status = s.status := rfl
@[simp] theorem State.setReg_ssize (s : State) (r : Reg) (v : Word) : (s.setReg r v).ssize = s.ssize := rfl
@[simp] theorem State.setReg_st (s : State) (r : Reg) (v : Word) : (s.setReg r v).st = s.st := rfl
@[simp] theorem State.setReg_sb (s : State) (r : Reg) (v : Word) : (s.setReg r v).sb = s.sb := rfl
@[simp] theorem State.setReg_mem (s : State) (r : Reg) (v : Word) : (s.setReg r v).mem = s.mem := rfl
@[simp] theorem State.setReg_params (s : State) (r : Reg) (v : Word) : (s.setReg r v).params = s.params := rfl
@[simp] theorem State.setReg_env (s : State) (r : Reg) (v : Word) : (s.setReg r v).env = s.env := rfl

@[simp] theorem State.advance_regs (s : State) (k : Word) : (s.advance k).regs = s.regs := rfl
@[simp] theorem State.advance_pc (s : State) (k : Word) : (s.advance k).pc = s.pc + k := rfl
@[simp] theorem State.advance_status (s : State) (k : Word) : (s.advance k).status = s.status := rfl
@[simp] theorem State.advance_ssize (s : State) (k : Word) : (s.advance k).ssize = s.ssize := rfl
@[simp] theorem State.advance_st (s : State) (k : Word) : (s.advance k).st = s.st := rfl
@[simp] theorem State.advance_sb (s : State) (k : Word) : (s.advance k).sb = s.sb := rfl
@[simp] theorem State.advance_mem (s : State) (k : Word) : (s.advance k).mem = s.mem := rfl
@[simp] theorem State.advance_params (s : State) (k : Word) : (s.advance k).params = s.params := rfl
@[simp] theorem State.advance_env (s : State) (k : Word) : (s.advance k).env = s.env := rfl

@[simp] theorem State.jump_regs (s : State) (n : Word) : (s.jump n).regs = s.regs := rfl
@[simp] theorem State.jump_pc (s : State) (n : Word) : (s.jump n).pc = n := rfl
@[simp] theorem State.jump_status (s : State) (n : Word) : (s.jump n).status = s.status := rfl
@[simp] theorem State.jump_ssize (s : State) (n : Word) : (s.jump n).ssize = s.ssize := rfl
@[simp] theorem State.jump_st (s : State) (n : Word) : (s.jump n).st = s.st := rfl
@[simp] theorem State.jump_sb (s : State) (n : Word) : (s.jump n).sb = s.sb := rfl
@[simp] theorem State.jump_mem (s : State) (n : Word) : (s.jump n).mem = s.mem := rfl
@[simp] theorem State.jump_params (s : State) (n : Word) : (s.jump n).params = s.params := rfl
@[simp] theorem State.jump_env (s : State) (n : Word) : (s.jump n).env = s.env := rfl

@[simp] theorem State.raise_regs (s : State) (e : Status) : (s.raise e).regs = s.regs := rfl
@[simp] theorem State.raise_pc (s : State) (e : Status) : (s.raise e).pc = s.pc := rfl
@[simp] theorem State.raise_status (s : State) (e : Status) : (s.raise e).status = e := rfl
@[simp] theorem State.raise_ssize (s : State) (e : Status) : (s.raise e).ssize = s.ssize := rfl
@[simp] theorem State.raise_st (s : State) (e : Status) : (s.raise e).st = s.st := rfl
@[simp] theorem State.raise_sb (s : State) (e : Status) : (s.raise e).sb = s.sb := rfl
@[simp] theorem State.raise_mem (s : State) (e : Status) : (s.raise e).mem = s.mem := rfl
@[simp] theorem State.raise_params (s : State) (e : Status) : (s.raise e).params = s.params := rfl
@[simp] theorem State.raise_env (s : State) (e : Status) : (s.raise e).env = s.env := rfl

@[simp] theorem State.setSsize_regs (s : State) (k : Nat) : (s.setSsize k).regs = s.regs := rfl
@[simp] theorem State.setSsize_pc (s : State) (k : Nat) : (s.setSsize k).pc = s.pc := rfl
@[simp] theorem State.setSsize_status (s : State) (k : Nat) : (s.setSsize k).status = s.status := rfl
@[simp] theorem State.setSsize_ssize (s : State) (k : Nat) : (s.setSsize k).ssize = k := rfl
@[simp] theorem State.setSsize_st (s : State) (k : Nat) : (s.setSsize k).st = s.st := rfl
@[simp] theorem State.setSsize_sb (s : State) (k : Nat) : (s.setSsize k).sb = s.sb := rfl
@[simp] theorem State.setSsize_mem (s : State) (k : Nat) : (s.setSsize k).mem = s.mem := rfl
@[simp] theorem State.setSsize_params (s : State) (k : Nat) : (s.setSsize k).params = s.params := rfl
@[simp] theorem State.setSsize_env (s : State) (k : Nat) : (s.setSsize k).env = s.env := rfl

@[simp] theorem State.setEnv_regs (s : State) (e : Env) : (s.setEnv e).regs = s.regs := rfl
@[simp] theorem State.setEnv_pc (s : State) (e : Env) : (s.setEnv e).pc = s.pc := rfl
@[simp] theorem State.setEnv_status (s : State) (e : Env) : (s.setEnv e).status = s.status := rfl
@[simp] theorem State.setEnv_ssize (s : State) (e : Env) : (s.setEnv e).ssize = s.ssize := rfl
@[simp] theorem State.setEnv_st (s : State) (e : Env) : (s.setEnv e).st = s.st := rfl
@[simp] theorem State.setEnv_sb (s : State) (e : Env) : (s.setEnv e).sb = s.sb := rfl
@[simp] theorem State.setEnv_mem (s : State) (e : Env) : (s.setEnv e).mem = s.mem := rfl
@[simp] theorem State.setEnv_params (s : State) (e : Env) : (s.setEnv e).params = s.params := rfl
@[simp] theorem State.setEnv_env (s : State) (e : Env) : (s.setEnv e).env = e := rfl

@[simp] theorem State.emit_regs (s : State) (o : OutEvent) : (s.emit o).regs = s.regs := rfl
@[simp] theorem State.emit_pc (s : State) (o : OutEvent) : (s.emit o).pc = s.pc := rfl
@[simp] theorem State.emit_status (s : State) (o : OutEvent) : (s.emit o).status = s.status := rfl
@[simp] theorem State.emit_ssize (s : State) (o : OutEvent) : (s.emit o).ssize = s.ssize := rfl
@[simp] theorem State.emit_st (s : State) (o : OutEvent) : (s.emit o).st = s.st := rfl
@[simp] theorem State.emit_sb (s : State) (o : OutEvent) : (s.emit o).sb = s.sb := rfl
@[simp] theorem State.emit_mem (s : State) (o : OutEvent) : (s.emit o).mem = s.mem := rfl
@[simp] theorem State.emit_params (s : State) (o : OutEvent) : (s.emit o).params = s.params := rfl
@[simp] theorem State.emit_env (s : State) (o : OutEvent) : (s.emit o).env = { s.env with sink := s.env.sink ++ [o] } := rfl

@[simp] theorem State.warmReset_regs (s : State) : (s.warmReset).regs = ⟨0, 0, 0, 0⟩ := rfl
@[simp] theorem State.warmReset_pc (s : State) : (s.warmReset).pc = 0 := rfl
@[simp] theorem State.warmReset_status (s : State) : (s.warmReset).status = .ok := rfl
@[simp] theorem State.warmReset_ssize (s : State) : (s.warmReset).ssize = 0 := rfl
@[simp] theorem State.warmReset_st (s : State) : (s.warmReset).st = s.st := rfl
@[simp] theorem State.warmReset_sb (s : State) : (s.warmReset).sb = s.sb := rfl
@[simp] theorem State.warmReset_mem (s : State) : (s.warmReset).mem = s.mem.clear (s.sp + 1) s.sb := rfl
@[simp] theorem State.warmReset_params (s : State) : (s.warmReset).params = s.params := rfl
@[simp] theorem State.warmReset_env (s : State) : (s.warmReset).env = s.env := rfl

/-- Reading the register just written gives the value. -/
@[simp] theorem Regs.read_write_self (x : Regs) (r : Reg) (v : Word) : (x.write r v).read r = v := by
  cases r <;> rfl

/-- Reading another register gives what it held. -/
theorem Regs.read_write_ne (x : Regs) (r q : Reg) (v : Word) (h : q ≠ r) : (x.write r v).read q = x.read q := by
  cases r <;> cases q <;> first | rfl | exact absurd rfl h

/-- Two register files that read alike are equal. -/
theorem Regs.ext_read (x y : Regs) (h : ∀ r, x.read r = y.read r) : x = y := by
  have hA := h .A
  have hB := h .B
  have hC := h .C
  have hD := h .D
  cases x
  cases y
  simp_all [Regs.read]

/-- A register update seen through `State.reg`. -/
theorem State.reg_setReg (s : State) (r q : Reg) (v : Word) :
    (s.setReg r v).reg q = if q = r then v else s.reg q := by
  unfold State.reg
  split
  · next h => subst h; simp
  · next h => simp [Regs.read_write_ne _ _ _ _ h]

@[simp] theorem State.reg_advance (s : State) (k : Word) (q : Reg) : (s.advance k).reg q = s.reg q := rfl
@[simp] theorem State.reg_jump (s : State) (n : Word) (q : Reg) : (s.jump n).reg q = s.reg q := rfl
@[simp] theorem State.reg_raise (s : State) (e : Status) (q : Reg) : (s.raise e).reg q = s.reg q := rfl
@[simp] theorem State.reg_setSsize (s : State) (k : Nat) (q : Reg) : (s.setSsize k).reg q = s.reg q := rfl
@[simp] theorem State.reg_setEnv (s : State) (e : Env) (q : Reg) : (s.setEnv e).reg q = s.reg q := rfl
@[simp] theorem State.reg_emit (s : State) (o : OutEvent) (q : Reg) : (s.emit o).reg q = s.reg q := rfl

end Sys2Proof.Machine
end

