-- ==== Sys2Proof/Laws/Ops.lean ====
section
/-! SUPPORT. What each shared operation can do, said once. -/

namespace Sys2Proof.Machine

/-- A register operand either names a register, and the handler goes on with it, or raises ILLEGAL_OPERAND (R73). -/
theorem withReg_cases (c : Word) (stop : State) (k : Reg → Out) :
    (∃ r, regOf c = some r ∧ withReg c stop k = k r) ∨
    (regOf c = none ∧ withReg c stop k = .next (stop.raise .illegalOperand)) := by
  unfold withReg
  cases h : regOf c with
  | none => exact .inr ⟨rfl, rfl⟩
  | some r => exact .inl ⟨r, rfl, rfl⟩

/-- A register operand that names a register hands it to the handler. -/
theorem withReg_some {c : Word} {r : Reg} (h : regOf c = some r) (stop : State) (k : Reg → Out) :
    withReg c stop k = k r := by
  simp [withReg, h]

/-- A register operand that names none raises ILLEGAL_OPERAND. -/
theorem withReg_none {c : Word} (h : regOf c = none) (stop : State) (k : Reg → Out) :
    withReg c stop k = .next (stop.raise .illegalOperand) := by
  simp [withReg, h]

/-- A register id written by a program is read as its register. -/
@[simp] theorem regOf_cell (r : Reg) : regOf r.cell = some r := by cases r <;> rfl

/-- A cell that names a register is that register's id. -/
theorem regOf_eq_some {c : Word} {r : Reg} (h : regOf c = some r) : c = r.cell := by
  unfold regOf at h
  apply BitVec.eq_of_toNat_eq
  split at h <;> first | (cases h; assumption) | cases h

/-- A memory read answers exactly on cells that exist. -/
theorem State.memRead_eq_some {s : State} {i : Int} {v : Word} (h : s.memRead i = some v) :
    s.hasCell i ∧ v = s.mem.read i.toNat := by
  unfold State.memRead at h
  split at h
  · next hi => exact ⟨hi, (Option.some.inj h).symm⟩
  · cases h

/-- A memory write answers exactly on cells that exist, and changes the memory alone. -/
theorem State.memWrite_eq_some {s t : State} {i : Int} {v : Word} (h : s.memWrite i v = some t) :
    s.hasCell i ∧ t = { s with mem := s.mem.write i.toNat v } := by
  unfold State.memWrite at h
  split at h
  · next hi => exact ⟨hi, (Option.some.inj h).symm⟩
  · cases h

/-- Asking the decimal source: a ready answer, a free answer, or a hold (R150, R81). -/
theorem Env.askDec_cases (e : Env) :
    (∃ a rest, e.decIn = a :: rest ∧ e.askDec = some (a, { e with decIn := rest, decAsked := e.decAsked + 1 })) ∨
    (e.decIn = [] ∧ e.decHeld = false ∧
      e.askDec = some (Config.decAnswer e.decAsked, { e with decAsked := e.decAsked + 1 })) ∨
    (e.decIn = [] ∧ e.decHeld = true ∧ e.askDec = none) := by
  unfold Env.askDec
  cases hl : e.decIn with
  | cons a rest => exact .inl ⟨a, rest, rfl, rfl⟩
  | nil => cases hh : e.decHeld <;> simp

/-- Asking the byte source: a ready answer, a free answer, or a hold (R150, R81). -/
theorem Env.askByte_cases (e : Env) :
    (∃ a rest, e.byteIn = a :: rest ∧ e.askByte = some (a, { e with byteIn := rest, byteAsked := e.byteAsked + 1 })) ∨
    (e.byteIn = [] ∧ e.byteHeld = false ∧
      e.askByte = some (Config.byteAnswer e.byteAsked, { e with byteAsked := e.byteAsked + 1 })) ∨
    (e.byteIn = [] ∧ e.byteHeld = true ∧ e.askByte = none) := by
  unfold Env.askByte
  cases hl : e.byteIn with
  | cons a rest => exact .inl ⟨a, rest, rfl, rfl⟩
  | nil => cases hh : e.byteHeld <;> simp

/-- A state that takes a decimal answer keeps its layout, stack, memory and program counter (R151). -/
theorem State.takeDec_keeps (s : State) (r : Reg) (a : DecAnswer) :
    (s.takeDec r a).pc = s.pc ∧ (s.takeDec r a).ssize = s.ssize ∧ (s.takeDec r a).st = s.st ∧
    (s.takeDec r a).sb = s.sb ∧ (s.takeDec r a).mem = s.mem ∧ (s.takeDec r a).params = s.params ∧
    (s.takeDec r a).env = s.env := by
  cases a <;> simp [State.takeDec, State.endOfInput]

/-- A state that takes a byte answer keeps everything but its registers (R152). -/
theorem State.takeByte_keeps (s : State) (r : Reg) (a : ByteAnswer) :
    (s.takeByte r a).pc = s.pc ∧ (s.takeByte r a).ssize = s.ssize ∧ (s.takeByte r a).st = s.st ∧
    (s.takeByte r a).sb = s.sb ∧ (s.takeByte r a).mem = s.mem ∧ (s.takeByte r a).params = s.params ∧
    (s.takeByte r a).env = s.env ∧ (s.takeByte r a).status = s.status := by
  cases a <;> simp [State.takeByte, State.endOfInput]

/-- A register write that gives a register its own value changes nothing. -/
theorem Regs.write_read (x : Regs) (r : Reg) : x.write r (x.read r) = x := by cases r <;> rfl

/-- The exact sum of two cells, narrowed, is their machine sum. -/
theorem wrap32_add (a b : Word) : wrap32 (a.toInt + b.toInt) = a + b := by
  simp [wrap32, BitVec.ofInt_add]

/-- Narrowing the signed value of a cell gives the cell. -/
@[simp] theorem wrap32_toInt (a : Word) : wrap32 a.toInt = a := by
  simp [wrap32]

end Sys2Proof.Machine
end

