-- ==== Sys2Proof/Laws/Exec.lean ====
section
/-! SUPPORT. What an instruction can do, said once: every next state `exec` answers has one of the shapes of `Effect`; and the
cells the invariant makes the stack operations reach. -/

namespace Sys2Proof.Machine

/-- A validated operand's handler ran, or ILLEGAL_OPERAND was raised (R73). -/
theorem withReg_next {c : Word} {stop : State} {k : Reg → Out} {t : State} (h : withReg c stop k = .next t) :
    (∃ r : Reg, c = r.cell ∧ k r = .next t) ∨ (regOf c = none ∧ t = stop.raise .illegalOperand) := by
  rcases withReg_cases c stop k with ⟨r, h1, h2⟩ | ⟨h1, h2⟩
  · exact .inl ⟨r, regOf_eq_some h1, h2 ▸ h⟩
  · rw [h2] at h
    injection h with h
    exact .inr ⟨h1, h.symm⟩

/-- Two registers with the same id are the same. -/
theorem Reg.cell_injective {r q : Reg} (h : r.cell = q.cell) : r = q := by simpa using congrArg regOf h

/-- The shapes of a next state of instruction `i` at `s`. -/
inductive Effect (i : Instr) (s : State) : State → Prop
  /-- `nop`, `loop`: the program counter alone -/
  | moved (k : Word) : (i = .nop ∨ ∃ n, i = .loop n) → Effect i s { s with pc := k }
  /-- `halt` -/
  | halted : i = .halt → Effect i s ((s.advance 1).raise .halted)
  /-- registers alone: arithmetic, moves and a `load` inside the window -/
  | wrote (k : Word) (x : Regs) :
      (∀ q, ¬ mayWrite i q → x.read q = s.reg q) → storeAddress i s = none →
      (∀ c ∈ i.regCells, ∃ r, regOf c = some r) →
      i ≠ .halt → (∀ c, i ≠ .in_ c) → (∀ c, i ≠ .get c) → (∀ c, i ≠ .out c) → (∀ c, i ≠ .put c) →
      (∀ r : Reg, i = .div r.cell → s.reg r ≠ 0) → (∀ c n, i = .load c n → s.inWindow (s.effAddr n)) →
      Effect i s { s with pc := s.pc + k, regs := x }
  /-- a register operand that is no register id -/
  | badOperand (k : Word) : (∃ c ∈ i.regCells, regOf c = none) → Effect i s ((s.advance k).raise .illegalOperand)
  /-- `put` of a value that is no byte -/
  | badByte (r : Reg) : i = .put r.cell → ¬ (0 ≤ (s.reg r).toInt ∧ (s.reg r).toInt ≤ 255) →
      Effect i s ((s.advance 2).raise .illegalOperand)
  /-- `div` by zero -/
  | zeroDivisor (r : Reg) : i = .div r.cell → s.reg r = 0 → Effect i s ((s.advance 2).raise .divByZero)
  /-- a stack or window check that failed -/
  | badStack (k : Word) (r : Reg) :
      ((i = .push r.cell ∧ s.stackFull) ∨ (i = .pop r.cell ∧ s.ssize = 0) ∨
        ∃ n : Word, (i = .load r.cell n ∨ i = .store r.cell n) ∧ ¬ s.inWindow (s.effAddr n)) →
      Effect i s ((s.advance k).raise .invalidStackOperation)
  /-- `store` inside the window -/
  | stored (r : Reg) (n : Word) : i = .store r.cell n → s.inWindow (s.effAddr n) → s.hasCell (s.effAddr n) →
      Effect i s { s with pc := s.pc + 3, mem := s.mem.write (s.effAddr n).toNat (s.reg r) }
  /-- `push` on a stack that is not full -/
  | pushed (r : Reg) : i = .push r.cell → ¬ s.stackFull → s.hasCell s.sp →
      Effect i s { s with pc := s.pc + 2, mem := s.mem.write s.sp.toNat (s.reg r), ssize := s.ssize + 1 }
  /-- `pop` from a stack that is not empty -/
  | popped (r : Reg) : i = .pop r.cell → s.ssize ≠ 0 → s.hasCell (s.sp + 1) →
      Effect i s { s with
        pc := s.pc + 2, mem := s.mem.write (s.sp + 1).toNat 0, ssize := s.ssize - 1,
        regs := s.regs.write r (s.mem.read (s.sp + 1).toNat) }
  /-- `in` with an answer of the decimal port -/
  | tookDec (r : Reg) (a : DecAnswer) (e : Env) : i = .in_ r.cell → s.env.askDec = some (a, e) →
      Effect i s (((s.advance 2).setEnv e).takeDec r a)
  /-- `get` with an answer of the byte port -/
  | tookByte (r : Reg) (a : ByteAnswer) (e : Env) : i = .get r.cell → s.env.askByte = some (a, e) →
      Effect i s (((s.advance 2).setEnv e).takeByte r a)
  /-- `out`, and `put` of a byte -/
  | emitted (r : Reg) (o : OutEvent) :
      (i = .out r.cell ∨ (i = .put r.cell ∧ 0 ≤ (s.reg r).toInt ∧ (s.reg r).toInt ≤ 255)) →
      Effect i s ((s.advance 2).emit o)

/-- `add`, `sub` and `mul` have a shape of `Effect`. -/
theorem Effect.of_accumulate {f : Int → Int → Int} {c : Word} {s t : State} {i : Instr}
    (hi : i = .add c ∨ i = .sub c ∨ i = .mul c) (h : accumulate f c s = .next t) : Effect i s t := by
  replace h := withReg_next h
  rcases h with ⟨r, rfl, h⟩ | ⟨h, rfl⟩
  · injection h with h
    subst h
    rcases hi with rfl | rfl | rfl
    all_goals
      exact .wrote 2 _ (fun q hq => Regs.read_write_ne _ _ _ _ hq) rfl (by simp [Instr.regCells]) (by simp) (by simp) (by simp)
        (by simp) (by simp) (by simp) (by simp)
  · exact .badOperand 2 ⟨c, by rcases hi with rfl | rfl | rfl <;> simp [Instr.regCells], h⟩

/-- `inc` and `dec` have a shape of `Effect`. -/
theorem Effect.of_bump {k : Int} {c : Word} {s t : State} {i : Instr} (hi : i = .inc c ∨ i = .dec c)
    (h : bump k c s = .next t) : Effect i s t := by
  replace h := withReg_next h
  rcases h with ⟨r, rfl, h⟩ | ⟨h, rfl⟩
  · injection h with h
    subst h
    rcases hi with rfl | rfl
    all_goals
      exact .wrote 2 _ (fun q hq => Regs.read_write_ne _ _ _ _ (fun e => hq (by simp [mayWrite, e]))) rfl
        (by simp [Instr.regCells]) (by simp) (by simp) (by simp) (by simp) (by simp) (by simp) (by simp)
  · exact .badOperand 2 ⟨c, by rcases hi with rfl | rfl <;> simp [Instr.regCells], h⟩

/-- Every next state of an instruction has one of the shapes of `Effect`. -/
theorem exec_effect {i : Instr} {s t : State} (h : exec i s = .next t) : Effect i s t := by
  cases i with
  | nop =>
    injection h with h
    subst h
    exact .moved _ (.inl rfl)
  | halt =>
    injection h with h
    subst h
    exact .halted rfl
  | add c => exact .of_accumulate (by simp) h
  | sub c => exact .of_accumulate (by simp) h
  | mul c => exact .of_accumulate (by simp) h
  | inc c => exact .of_bump (by simp) h
  | dec c => exact .of_bump (by simp) h
  | loop n =>
    injection h with h
    subst h
    split <;> exact .moved _ (.inr ⟨n, rfl⟩)
  | div c =>
    replace h := withReg_next h
    rcases h with ⟨r, rfl, h⟩ | ⟨h, rfl⟩
    · split at h
      · next h0 =>
        injection h with h
        subst h
        exact .zeroDivisor r rfl h0
      · next h0 =>
        injection h with h
        subst h
        refine .wrote 2 _ (fun q hq => Regs.read_write_ne _ _ _ _ hq) rfl (by simp [Instr.regCells]) (by simp) (by simp)
          (by simp) (by simp) (by simp) (fun q hq => ?_) (by simp)
        injection hq with hq
        rw [← Reg.cell_injective hq]
        exact h0
    · exact .badOperand 2 ⟨c, by simp [Instr.regCells], h⟩
  | movr c n =>
    replace h := withReg_next h
    rcases h with ⟨r, rfl, h⟩ | ⟨h, rfl⟩
    · injection h with h
      subst h
      exact .wrote 3 _ (fun q hq => Regs.read_write_ne _ _ _ _ (fun e => hq (by simp [mayWrite, e]))) rfl
        (by simp [Instr.regCells]) (by simp) (by simp) (by simp) (by simp) (by simp) (by simp) (by simp)
    · exact .badOperand 2 ⟨c, by simp [Instr.regCells], h⟩
  | load c n =>
    replace h := withReg_next h
    rcases h with ⟨r, rfl, h⟩ | ⟨h, rfl⟩
    · split at h
      · next hw =>
        split at h
        · injection h with h
          subst h
          refine .wrote 3 _ (fun q hq => Regs.read_write_ne _ _ _ _ (fun e => hq (by simp [mayWrite, e]))) rfl
            (by simp [Instr.regCells]) (by simp) (by simp) (by simp) (by simp) (by simp) (by simp) ?_
          intro d m hm
          cases hm
          exact hw
        · cases h
      · next hw =>
        injection h with h
        subst h
        exact .badStack 3 r (.inr (.inr ⟨n, .inl rfl, hw⟩))
    · exact .badOperand 2 ⟨c, by simp [Instr.regCells], h⟩
  | store c n =>
    replace h := withReg_next h
    rcases h with ⟨r, rfl, h⟩ | ⟨h, rfl⟩
    · split at h
      · next hw =>
        split at h
        · next u hu =>
          injection h with h
          subst h
          obtain ⟨h1, rfl⟩ := State.memWrite_eq_some hu
          exact .stored r n rfl hw h1
        · cases h
      · next hw =>
        injection h with h
        subst h
        exact .badStack 3 r (.inr (.inr ⟨n, .inr rfl, hw⟩))
    · exact .badOperand 2 ⟨c, by simp [Instr.regCells], h⟩
  | in_ c =>
    replace h := withReg_next h
    rcases h with ⟨r, rfl, h⟩ | ⟨h, rfl⟩
    · split at h
      · next a e ha =>
        injection h with h
        subst h
        exact .tookDec r a e rfl ha
      · cases h
    · exact .badOperand 2 ⟨c, by simp [Instr.regCells], h⟩
  | get c =>
    replace h := withReg_next h
    rcases h with ⟨r, rfl, h⟩ | ⟨h, rfl⟩
    · split at h
      · next a e ha =>
        injection h with h
        subst h
        exact .tookByte r a e rfl ha
      · cases h
    · exact .badOperand 2 ⟨c, by simp [Instr.regCells], h⟩
  | out c =>
    replace h := withReg_next h
    rcases h with ⟨r, rfl, h⟩ | ⟨h, rfl⟩
    · injection h with h
      subst h
      exact .emitted r _ (.inl rfl)
    · exact .badOperand 2 ⟨c, by simp [Instr.regCells], h⟩
  | put c =>
    replace h := withReg_next h
    rcases h with ⟨r, rfl, h⟩ | ⟨h, rfl⟩
    · split at h
      · next hb =>
        injection h with h
        subst h
        exact .emitted r _ (.inr ⟨rfl, hb⟩)
      · next hb =>
        injection h with h
        subst h
        exact .badByte r rfl hb
    · exact .badOperand 2 ⟨c, by simp [Instr.regCells], h⟩
  | swap c d =>
    replace h := withReg_next h
    rcases h with ⟨p, rfl, h⟩ | ⟨h, rfl⟩
    · replace h := withReg_next h
      rcases h with ⟨q, rfl, h⟩ | ⟨h, rfl⟩
      · injection h with h
        subst h
        refine .wrote 3 ((s.regs.write p (s.reg q)).write q (s.reg p)) (fun r hr => ?_) rfl (by simp [Instr.regCells])
          (by simp) (by simp) (by simp) (by simp) (by simp) (by simp) (by simp)
        rw [Regs.read_write_ne _ _ _ _ (fun e => hr (by simp [mayWrite, e])),
          Regs.read_write_ne _ _ _ _ (fun e => hr (by simp [mayWrite, e]))]
        rfl
      · exact .badOperand 3 ⟨d, by simp [Instr.regCells], h⟩
    · exact .badOperand 2 ⟨c, by simp [Instr.regCells], h⟩
  | push c =>
    replace h := withReg_next h
    rcases h with ⟨r, rfl, h⟩ | ⟨h, rfl⟩
    · split at h
      · next hf =>
        injection h with h
        subst h
        exact .badStack 2 r (.inl ⟨rfl, hf⟩)
      · next hf =>
        split at h
        · next u hu =>
          injection h with h
          subst h
          obtain ⟨h1, rfl⟩ := State.memWrite_eq_some hu
          exact .pushed r rfl hf h1
        · cases h
    · exact .badOperand 2 ⟨c, by simp [Instr.regCells], h⟩
  | pop c =>
    replace h := withReg_next h
    rcases h with ⟨r, rfl, h⟩ | ⟨h, rfl⟩
    · split at h
      · next hf =>
        injection h with h
        subst h
        exact .badStack 2 r (.inr (.inl ⟨rfl, hf⟩))
      · next hf =>
        split at h
        · next v u hv hu =>
          injection h with h
          subst h
          obtain ⟨h1, rfl⟩ := State.memWrite_eq_some hu
          obtain ⟨_, rfl⟩ := State.memRead_eq_some hv
          exact .popped r rfl hf h1
        · cases h
    · exact .badOperand 2 ⟨c, by simp [Instr.regCells], h⟩

/-- Under the invariant every cell of the used window exists (R37, R41). -/
theorem State.Inv.hasCell_window {s : State} (h : s.Inv) {ea : Int} (hw : s.inWindow ea) : s.hasCell ea := by
  have hb := h.bottom
  have ht := h.top
  have hz := h.size
  have ha := h.admissible.1
  have hsp : s.sp = s.sb - (s.ssize : Int) := rfl
  constructor <;> omega

/-- Under the invariant the stack is full exactly when it holds `CAP` cells (R132). -/
theorem State.Inv.stackFull_iff {s : State} (h : s.Inv) : s.stackFull ↔ s.ssize = s.params.cap := by
  have ht := h.top
  unfold State.stackFull
  omega

/-- Under the invariant the next free slot of a stack that is not full exists (R36). -/
theorem State.Inv.hasCell_sp {s : State} (h : s.Inv) (hf : ¬ s.stackFull) : s.hasCell s.sp := by
  have hc : s.ssize ≠ s.params.cap := mt h.stackFull_iff.mpr hf
  have hb := h.bottom
  have ht := h.top
  have hz := h.size
  have ha := h.admissible.1
  have hsp : s.sp = s.sb - (s.ssize : Int) := rfl
  constructor <;> omega

/-- Under the invariant the top slot of a stack that is not empty exists (R36). -/
theorem State.Inv.hasCell_top {s : State} (h : s.Inv) (hn : s.ssize ≠ 0) : s.hasCell (s.sp + 1) :=
  h.hasCell_window ⟨le_refl _, by have hsp : s.sp = s.sb - (s.ssize : Int) := rfl; omega⟩

/-- A memory read answers on a cell that exists. -/
theorem State.memRead_of_hasCell {s : State} {i : Int} (h : s.hasCell i) : s.memRead i = some (s.mem.read i.toNat) := by
  rw [State.memRead, if_pos h]

/-- A memory write answers on a cell that exists. -/
theorem State.memWrite_of_hasCell {s : State} {i : Int} (h : s.hasCell i) (v : Word) :
    s.memWrite i v = some { s with mem := s.mem.write i.toNat v } := by
  rw [State.memWrite, if_pos h]

end Sys2Proof.Machine
end

