-- ==== Sys2Proof/Laws/Fetch.lean ====
section
/-! SUPPORT. What the front of a step can answer, and what a step can then do, said once (R71). -/

namespace Sys2Proof.Machine

/-- The cells fetched from an index that exists start with the cell there. -/
theorem State.cellsFrom_succ (s : State) (a k : Nat) (h : a < s.params.n) :
    s.cellsFrom a (k + 1) = s.mem.read a :: s.cellsFrom (a + 1) k := by
  simp [State.cellsFrom, h]

/-- No cell is fetched from an index that does not exist. -/
theorem State.cellsFrom_out (s : State) (a k : Nat) (h : s.params.n ≤ a) : s.cellsFrom a k = [] := by
  cases k with
  | zero => rfl
  | succ k => simp [State.cellsFrom, Nat.not_lt.mpr h]

/-- A stopped CORE fetches nothing (R77). -/
theorem fetch_stopped {s : State} (h : s.status ≠ .ok) : fetch s = .settled s := by
  simp [fetch, h]

/-- A runnable CORE whose program counter is outside the fetch region (R34). -/
theorem fetch_outside {s : State} (h : s.status = .ok) (hp : ¬ s.pcInRegion) :
    fetch s = .settled (s.raise .invalidAddress) := by
  simp only [fetch, h, ne_eq, not_true_eq_false, if_false]
  rw [if_neg hp]

/-- A runnable CORE whose cells decode to an instruction executes it (R71). -/
theorem fetch_run {s : State} {i : Instr} {rest : List Word} (h : s.status = .ok) (hp : s.pcInRegion)
    (hd : decode s.fetchCells = .instr i rest) : fetch s = .run i := by
  simp only [fetch, h, ne_eq, not_true_eq_false, if_false]
  rw [if_pos hp, hd]

/-- Every answer of a step comes from the stopped check, the program-counter check, the decoder's rejections, or the
instruction's meaning (R71). -/
theorem step_cases (s : State) :
    (s.status ≠ .ok ∧ step s = .next s) ∨
    (s.status = .ok ∧ ¬ s.pcInRegion ∧ step s = .next (s.raise .invalidAddress)) ∨
    (s.status = .ok ∧ s.pcInRegion ∧
      ((∃ i rest, decode s.fetchCells = .instr i rest ∧ step s = exec i s) ∨
       (decode s.fetchCells = .noCell ∧ step s = .fault .outsideMemory) ∨
       (∃ op, decode s.fetchCells = .illegalOpcode op ∧ step s = .next (s.raise .illegalInstruction)) ∨
       (∃ r, decode s.fetchCells = .illegalRegister r ∧
          step s = .next ((s.advance 2).raise .illegalOperand)) ∨
       (decode s.fetchCells = .missingOperand ∧ step s = .refused .operandFetchOutsideMemory))) := by
  by_cases hs : s.status = .ok
  · by_cases hp : s.pcInRegion
    · refine .inr (.inr ⟨hs, hp, ?_⟩)
      rcases hd : decode s.fetchCells with ⟨i, rest⟩ | _ | op | r | _
      · exact .inl ⟨i, rest, rfl, by rw [step, fetch_run hs hp hd]⟩
      · refine .inr (.inl ⟨rfl, ?_⟩)
        simp only [step, fetch, hs, hd, ne_eq, not_true_eq_false, if_false, if_pos hp]
      · refine .inr (.inr (.inl ⟨op, rfl, ?_⟩))
        simp only [step, fetch, hs, hd, ne_eq, not_true_eq_false, if_false, if_pos hp]
      · refine .inr (.inr (.inr (.inl ⟨r, rfl, ?_⟩)))
        simp only [step, fetch, hs, hd, ne_eq, not_true_eq_false, if_false, if_pos hp]
      · refine .inr (.inr (.inr (.inr ⟨rfl, ?_⟩)))
        simp only [step, fetch, hs, hd, ne_eq, not_true_eq_false, if_false, if_pos hp]
    · exact .inr (.inl ⟨hs, hp, by simp [step, fetch_outside hs hp]⟩)
  · exact .inl ⟨hs, by simp [step, fetch_stopped hs]⟩

end Sys2Proof.Machine
end

