-- ==== Sys2Proof/Laws/PerInstr.lean ====
section
/-! SUPPORT. Facts of every instruction as syntax, one lemma per constructor. -/

namespace Sys2Proof.Laws

/-- The encoding of an instruction is its opcode cell, an opcode of 0..18, and then its operand cells: one to three
cells, register operands first (R50, R51, R55). -/
def Encoding.Statement (i : Instr) : Prop :=
  (encode i).head? = some i.opcode ∧ 0 ≤ i.opcode.toInt ∧ i.opcode.toInt ≤ 18 ∧
  1 ≤ i.cells ∧ i.cells ≤ 3 ∧ i.regCells = i.operands.take i.regCells.length

theorem Encoding.nop : Encoding.Statement .nop := by
  refine ⟨rfl, by simp [Instr.opcode], by simp [Instr.opcode], ?_, ?_, rfl⟩ <;> simp [Instr.cells, encode, Instr.operands]

theorem Encoding.halt : Encoding.Statement .halt := by
  refine ⟨rfl, by simp [Instr.opcode], by simp [Instr.opcode], ?_, ?_, rfl⟩ <;> simp [Instr.cells, encode, Instr.operands]

theorem Encoding.add (r : Word) : Encoding.Statement (.add r) := by
  refine ⟨rfl, by simp [Instr.opcode], by simp [Instr.opcode], ?_, ?_, rfl⟩ <;> simp [Instr.cells, encode, Instr.operands]

theorem Encoding.sub (r : Word) : Encoding.Statement (.sub r) := by
  refine ⟨rfl, by simp [Instr.opcode], by simp [Instr.opcode], ?_, ?_, rfl⟩ <;> simp [Instr.cells, encode, Instr.operands]

theorem Encoding.mul (r : Word) : Encoding.Statement (.mul r) := by
  refine ⟨rfl, by simp [Instr.opcode], by simp [Instr.opcode], ?_, ?_, rfl⟩ <;> simp [Instr.cells, encode, Instr.operands]

theorem Encoding.div (r : Word) : Encoding.Statement (.div r) := by
  refine ⟨rfl, by simp [Instr.opcode], by simp [Instr.opcode], ?_, ?_, rfl⟩ <;> simp [Instr.cells, encode, Instr.operands]

theorem Encoding.inc (r : Word) : Encoding.Statement (.inc r) := by
  refine ⟨rfl, by simp [Instr.opcode], by simp [Instr.opcode], ?_, ?_, rfl⟩ <;> simp [Instr.cells, encode, Instr.operands]

theorem Encoding.dec (r : Word) : Encoding.Statement (.dec r) := by
  refine ⟨rfl, by simp [Instr.opcode], by simp [Instr.opcode], ?_, ?_, rfl⟩ <;> simp [Instr.cells, encode, Instr.operands]

theorem Encoding.loop (n : Word) : Encoding.Statement (.loop n) := by
  refine ⟨rfl, by simp [Instr.opcode], by simp [Instr.opcode], ?_, ?_, rfl⟩ <;> simp [Instr.cells, encode, Instr.operands]

theorem Encoding.movr (r n : Word) : Encoding.Statement (.movr r n) := by
  refine ⟨rfl, by simp [Instr.opcode], by simp [Instr.opcode], ?_, ?_, rfl⟩ <;> simp [Instr.cells, encode, Instr.operands]

theorem Encoding.load (r n : Word) : Encoding.Statement (.load r n) := by
  refine ⟨rfl, by simp [Instr.opcode], by simp [Instr.opcode], ?_, ?_, rfl⟩ <;> simp [Instr.cells, encode, Instr.operands]

theorem Encoding.store (r n : Word) : Encoding.Statement (.store r n) := by
  refine ⟨rfl, by simp [Instr.opcode], by simp [Instr.opcode], ?_, ?_, rfl⟩ <;> simp [Instr.cells, encode, Instr.operands]

theorem Encoding.in_ (r : Word) : Encoding.Statement (.in_ r) := by
  refine ⟨rfl, by simp [Instr.opcode], by simp [Instr.opcode], ?_, ?_, rfl⟩ <;> simp [Instr.cells, encode, Instr.operands]

theorem Encoding.get (r : Word) : Encoding.Statement (.get r) := by
  refine ⟨rfl, by simp [Instr.opcode], by simp [Instr.opcode], ?_, ?_, rfl⟩ <;> simp [Instr.cells, encode, Instr.operands]

theorem Encoding.out (r : Word) : Encoding.Statement (.out r) := by
  refine ⟨rfl, by simp [Instr.opcode], by simp [Instr.opcode], ?_, ?_, rfl⟩ <;> simp [Instr.cells, encode, Instr.operands]

theorem Encoding.put (r : Word) : Encoding.Statement (.put r) := by
  refine ⟨rfl, by simp [Instr.opcode], by simp [Instr.opcode], ?_, ?_, rfl⟩ <;> simp [Instr.cells, encode, Instr.operands]

theorem Encoding.swap (r1 r2 : Word) : Encoding.Statement (.swap r1 r2) := by
  refine ⟨rfl, by simp [Instr.opcode], by simp [Instr.opcode], ?_, ?_, rfl⟩ <;> simp [Instr.cells, encode, Instr.operands]

theorem Encoding.push (r : Word) : Encoding.Statement (.push r) := by
  refine ⟨rfl, by simp [Instr.opcode], by simp [Instr.opcode], ?_, ?_, rfl⟩ <;> simp [Instr.cells, encode, Instr.operands]

theorem Encoding.pop (r : Word) : Encoding.Statement (.pop r) := by
  refine ⟨rfl, by simp [Instr.opcode], by simp [Instr.opcode], ?_, ?_, rfl⟩ <;> simp [Instr.cells, encode, Instr.operands]

end Sys2Proof.Laws
end

