-- ==== Sys2Proof/Tests/Slice0.lean ====
section
/-! SUPPORT. The model's own tests. Expected values are those of spec/95_test_vectors.md (the vector's id stands in the
docstring) or are written out from the encodings of spec/30_encoding.md; and one witness theorem for every statement that has
hypotheses. -/

namespace Sys2Proof.Tests

open Sys2Proof Sys2Proof.Machine

/-- A created machine with the program cells, registers, the used stack cells lowest index first, a capacity and a number of
gap cells. -/
def bench (cells : List Word) (x : Regs) (stack : List Word) (cap gap : Nat) : State where
  regs := x
  pc := 0
  status := .ok
  ssize := stack.length
  st := (cells.length + gap : Nat)
  sb := (cells.length + gap + cap : Nat) - 1
  mem := (Memory.writeAll [] 0 cells).writeAll (cells.length + gap + cap - stack.length) stack
  params := ⟨cells.length, cap, cells.length + gap + cap, .little⟩
  env := Env.fresh

/-- The same machine with these answers ready. -/
def bench.fed (s : State) (dec : List DecAnswer) (byte : List ByteAnswer) : State :=
  s.setEnv { s.env with decIn := dec, byteIn := byte }

/-- The state after one step, where there is one. -/
def after (s : State) : Option State :=
  match step s with
  | .next t => some t
  | .fault _ => none
  | .refused _ => none

/-- Registers, status and program counter after one step. -/
def look (s : State) : Option (Regs × Status × Word) := (after s).map fun t => (t.regs, t.status, t.pc)

/-- Status, stack size and the memory's list after one step. -/
def lookStack (s : State) : Option (Status × Nat × Memory) := (after s).map fun t => (t.status, t.ssize, t.mem)

abbrev maxW : Word := 0x7FFFFFFF
abbrev minW : Word := 0x80000000

/-! ### Well-formedness: each check refuses an ill-formed term -/

theorem test_wellFormed_refuses_id_four : (Instr.add 4).wellFormed = false := by decide
theorem test_wellFormed_refuses_negative_id : (Instr.swap 0 (-1)).wellFormed = false := by decide
theorem test_wellFormed_accepts : (Instr.swap 0 3).wellFormed = true ∧ (Instr.movr 3 minW).wellFormed = true := by decide

/-! ### Decoding: every constructor by a word written out from R51 and R55 -/

theorem test_decode_control :
    decode [0x00000000] = .instr .nop [] ∧ decode [0x00000001] = .instr .halt [] ∧
    decode [0x00000008, 0xFFFFFFFB] = .instr (.loop (-5)) [] := by decide

theorem test_decode_arith :
    decode [0x00000002, 1] = .instr (.add 1) [] ∧ decode [0x00000003, 2] = .instr (.sub 2) [] ∧
    decode [0x00000004, 3] = .instr (.mul 3) [] ∧ decode [0x00000005, 7] = .instr (.div 7) [] ∧
    decode [0x00000006, 3] = .instr (.inc 3) [] ∧ decode [0x00000007, 2] = .instr (.dec 2) [] := by decide

theorem test_decode_move :
    decode [0x00000009, 0, 5] = .instr (.movr 0 5) [] ∧ decode [0x00000010, 0, 3] = .instr (.swap 0 3) [] := by decide

theorem test_decode_stack :
    decode [0x0000000A, 1, 0] = .instr (.load 1 0) [] ∧ decode [0x0000000B, 0, 0xFFFFFFFF] = .instr (.store 0 (-1)) [] ∧
    decode [0x00000011, 0, 9] = .instr (.push 0) [9] ∧ decode [0x00000012, 3] = .instr (.pop 3) [] := by decide

theorem test_decode_io :
    decode [0x0000000C, 0] = .instr (.in_ 0) [] ∧ decode [0x0000000D, 1] = .instr (.get 1) [] ∧
    decode [0x0000000E, 0] = .instr (.out 0) [] ∧ decode [0x0000000F, 0] = .instr (.put 0) [] := by decide

/-- E1, E2, E3: the whole cell is compared; and the decoder's other rejections, by name. -/
theorem test_decode_rejects :
    decode [19] = .illegalOpcode 19 ∧ decode [-1] = .illegalOpcode (-1) ∧ decode [258] = .illegalOpcode 258 ∧
    decode [] = .noCell ∧ decode [2] = .missingOperand ∧ decode [9, 1] = .missingOperand ∧
    decode [9, 4] = .illegalRegister 4 := by decide

/-- P1's cells 42 and -1 in bytes, least significant first (P3). -/
theorem test_bytes_little :
    cellsOfBytes .little [0x2A, 0, 0, 0, 0xFF, 0xFF, 0xFF, 0xFF] = some [42, -1] ∧
    cellsOfBytes .big [0, 0, 0, 0x2A] = some [42] ∧ cellsOfBytes .little [1, 2, 3, 4, 5] = none := by decide

theorem test_decodeTableWord : decodeTableWord 32 17 = some (.push 0) ∧ decodeTableWord 32 10 = some (.load 0 0) ∧
    decodeTableWord 32 19 = none := by decide

/-! ### One step (95_test_vectors.md) -/

/-- K1 -/
theorem test_nop : look (bench [0] ⟨0, 0, 0, 0⟩ [] 4 0) = some (⟨0, 0, 0, 0⟩, .ok, 1) := by decide
/-- K2 -/
theorem test_halt : look (bench [1] ⟨0, 0, 0, 0⟩ [] 4 0) = some (⟨0, 0, 0, 0⟩, .halted, 1) := by decide
/-- K4: a negative C jumps and is not decremented. -/
theorem test_loop_taken : look (bench [8, 7] ⟨0, 0, -1, 0⟩ [] 4 14) = some (⟨0, 0, -1, 0⟩, .ok, 7) := by decide
/-- K5 -/
theorem test_loop_falls_through : look (bench [8, 7] ⟨0, 0, 0, 0⟩ [] 4 14) = some (⟨0, 0, 0, 0⟩, .ok, 2) := by decide
/-- A1 -/
theorem test_add_wraps : look (bench [2, 1] ⟨maxW, 1, 0, 0⟩ [] 4 0) = some (⟨minW, 1, 0, 0⟩, .ok, 2) := by decide
/-- A4 -/
theorem test_add_doubles : look (bench [2, 0] ⟨21, 0, 0, 0⟩ [] 4 0) = some (⟨42, 0, 0, 0⟩, .ok, 2) := by decide
/-- A5: A minus the register, not the reverse. -/
theorem test_sub_order : look (bench [3, 1] ⟨5, 8, 0, 0⟩ [] 4 0) = some (⟨-3, 8, 0, 0⟩, .ok, 2) := by decide
/-- A8 -/
theorem test_sub_wraps : look (bench [3, 1] ⟨0, minW, 0, 0⟩ [] 4 0) = some (⟨minW, minW, 0, 0⟩, .ok, 2) := by decide
/-- A9 -/
theorem test_mul_signed : look (bench [4, 2] ⟨-6, 0, 7, 0⟩ [] 4 0) = some (⟨-42, 0, 7, 0⟩, .ok, 2) := by decide
/-- A13 -/
theorem test_mul_low_half : look (bench [4, 0] ⟨46341, 0, 0, 0⟩ [] 4 0) = some (⟨-2147479015, 0, 0, 0⟩, .ok, 2) := by decide
/-- A15 -/
theorem test_div_truncates : look (bench [5, 1] ⟨-7, 2, 0, 0⟩ [] 4 0) = some (⟨-3, 2, 0, 0⟩, .ok, 2) := by decide
/-- A25 -/
theorem test_div_by_zero : look (bench [5, 1] ⟨10, 0, 0, 0⟩ [] 4 0) = some (⟨10, 0, 0, 0⟩, .divByZero, 2) := by decide
/-- A27 -/
theorem test_inc_wraps : look (bench [6, 3] ⟨0, 0, 0, maxW⟩ [] 4 0) = some (⟨0, 0, 0, minW⟩, .ok, 2) := by decide
/-- A30: register id 4 is illegal. -/
theorem test_inc_illegal : look (bench [6, 4] ⟨1, 2, 3, 4⟩ [] 4 0) = some (⟨1, 2, 3, 4⟩, .illegalOperand, 2) := by decide
/-- A28 -/
theorem test_dec_wraps : look (bench [7, 2] ⟨0, 0, minW, 0⟩ [] 4 0) = some (⟨0, 0, maxW, 0⟩, .ok, 2) := by decide
/-- M1 -/
theorem test_movr : look (bench [9, 3, minW] ⟨0, 0, 0, 0⟩ [] 4 0) = some (⟨0, 0, 0, minW⟩, .ok, 3) := by decide
/-- M2: the immediate is not fetched. -/
theorem test_movr_illegal : look (bench [9, 4, 5] ⟨0, 0, 0, 0⟩ [] 4 0) = some (⟨0, 0, 0, 0⟩, .illegalOperand, 2) := by decide
/-- M3 -/
theorem test_swap : look (bench [16, 0, 3] ⟨1, 0, 0, 9⟩ [] 4 0) = some (⟨9, 0, 0, 1⟩, .ok, 3) := by decide
/-- M5 -/
theorem test_swap_second_illegal :
    look (bench [16, 0, -1] ⟨1, 0, 0, 9⟩ [] 4 0) = some (⟨1, 0, 0, 9⟩, .illegalOperand, 3) := by decide
/-- T13: D is read for the address, then overwritten. -/
theorem test_load_into_d : look (bench [10, 3, -1] ⟨0, 0, 0, 1⟩ [9, 7] 4 0) = some (⟨0, 0, 0, 9⟩, .ok, 3) := by decide
/-- T15: the offset sum does not wrap. -/
theorem test_load_offset_does_not_wrap :
    look (bench [10, 1, minW] ⟨0, 0, 0, minW⟩ [9, 7] 4 0) = some (⟨0, 0, 0, minW⟩, .invalidStackOperation, 3) := by decide
/-- T17 -/
theorem test_store : lookStack (bench [11, 0, -1] ⟨42, 0, 0, 1⟩ [9, 7] 4 0) =
    some (.ok, 2, [(0, 11), (2, -1), (5, 42), (6, 7)]) := by decide
/-- T19: a store cannot reach the unused slot. -/
theorem test_store_outside : lookStack (bench [11, 0, 2] ⟨42, 0, 0, 0⟩ [9, 7] 4 0) =
    some (.invalidStackOperation, 2, [(0, 11), (2, 2), (5, 9), (6, 7)]) := by decide
/-- T1 -/
theorem test_push : lookStack (bench [17, 0] ⟨7, 0, 0, 0⟩ [] 4 0) = some (.ok, 1, [(0, 17), (5, 7)]) := by decide
/-- T2 -/
theorem test_push_full : lookStack (bench [17, 0] ⟨7, 0, 0, 0⟩ [2, 1] 2 0) =
    some (.invalidStackOperation, 2, [(0, 17), (2, 2), (3, 1)]) := by decide
/-- T5 -/
theorem test_pop : lookStack (bench [18, 1] ⟨0, 0, 0, 0⟩ [9, 7] 4 0) = some (.ok, 1, [(0, 18), (1, 1), (5, 7)]) ∧
    look (bench [18, 1] ⟨0, 0, 0, 0⟩ [9, 7] 4 0) = some (⟨0, 9, 0, 0⟩, .ok, 2) := by decide
/-- T6 -/
theorem test_pop_empty :
    look (bench [18, 3] ⟨0, 0, 0, 0⟩ [] 4 0) = some (⟨0, 0, 0, 0⟩, .invalidStackOperation, 2) := by decide
/-- I1, I2 -/
theorem test_in : look (bench.fed (bench [12, 0] ⟨5, 5, 5, 5⟩ [] 4 0) [.int (-17)] []) = some (⟨-17, 5, 5, 5⟩, .ok, 2) ∧
    look (bench.fed (bench [12, 0] ⟨5, 5, 5, 5⟩ [] 4 0) [.eof] []) = some (⟨-1, 5, 0, 5⟩, .ok, 2) := by decide
/-- I3, I4 -/
theorem test_in_c_and_failure :
    look (bench.fed (bench [12, 2] ⟨5, 5, 5, 5⟩ [] 4 0) [.eof] []) = some (⟨5, 5, -1, 5⟩, .ok, 2) ∧
    look (bench.fed (bench [12, 0] ⟨5, 5, 5, 5⟩ [] 4 0) [.parseFail] []) = some (⟨5, 5, 5, 5⟩, .ioError, 2) := by decide
/-- I6: a byte is zero-extended. -/
theorem test_get : look (bench.fed (bench [13, 1] ⟨0, 0, 0, 0⟩ [] 4 0) [] [.byte 255]) = some (⟨0, 255, 0, 0⟩, .ok, 2) := by
  decide
/-- I7 -/
theorem test_get_eof : look (bench.fed (bench [13, 1] ⟨5, 5, 5, 5⟩ [] 4 0) [] [.eof]) = some (⟨5, -1, 0, 5⟩, .ok, 2) := by decide
/-- I8: the sink receives the bytes 2D 35. -/
theorem test_out : (after (bench [14, 0] ⟨-5, 0, 0, 0⟩ [] 4 0)).map (fun t => sinkBytes t.env.sink) = some [0x2D, 0x35] := by
  decide
/-- I9, I10: eleven characters, and no separator. -/
theorem test_out_text : decText minW = [45, 50, 49, 52, 55, 52, 56, 51, 54, 52, 56] ∧
    sinkBytes [.dec 1, .dec 2] = [49, 50] ∧ decText 0 = [48] := by decide
/-- I11, I12 -/
theorem test_put : (after (bench [15, 0] ⟨255, 0, 0, 0⟩ [] 4 0)).map (fun t => t.env.sink) = some [.byte 255] := by decide
/-- I13 -/
theorem test_put_illegal : look (bench [15, 0] ⟨-1, 0, 0, 0⟩ [] 4 0) = some (⟨-1, 0, 0, 0⟩, .illegalOperand, 2) := by decide

/-- E6: an operand is fetched from the stack region. -/
theorem test_operand_from_the_stack_region :
    lookStack (bench [17] ⟨7, 0, 0, 0⟩ [] 2 0) = some (.ok, 1, [(0, 17), (2, 7)]) := by decide
/-- S7a: `halt` run with any budget returns 1. -/
theorem test_run_halt : (match run 5 (bench [1] ⟨0, 0, 0, 0⟩ [] 4 0) with
    | .next (c, t) => decide (c = 1 ∧ t.status = .halted)
    | .fault _ => false
    | .refused _ => false) = true := by decide
/-- E4: the step that stops the run is counted, and an error negates the count. -/
theorem test_run_error : (match run 10 (bench [0] ⟨0, 0, 0, 0⟩ [] 2 0) with
    | .next (c, t) => decide (c = -2 ∧ t.status = .invalidAddress)
    | .fault _ => false
    | .refused _ => false) = true := by decide
/-- Z4: an empty program with no gap. -/
theorem test_empty_machine : look (bench [] ⟨0, 0, 0, 0⟩ [] 2 0) = some (⟨0, 0, 0, 0⟩, .invalidAddress, 0) := by decide
/-- Z1: reset zeroes the used window and keeps the rest. -/
theorem test_warm_reset : (bench [17, 0] ⟨42, 7, 0, 1⟩ [42, 7] 4 0).warmReset.mem = [(0, 17)] := by decide
/-- An instruction placed at reset is the first to run. -/
theorem test_first_instruction : look (State.reset.withFetchWord 32 6) = some (⟨1, 0, 0, 0⟩, .ok, 2) := by decide
/-- The whole of `withFetchWord` on the longest instruction: `movr B 7`. -/
theorem test_first_long_instruction :
    look (State.reset.withFetchWord 96 (9 + 1 * 2 ^ 32 + 7 * 2 ^ 64)) = some (⟨0, 7, 0, 0⟩, .ok, 3) := by decide
/-- A host call before create is refused and a reset after an error is answered. -/
theorem test_lifecycle : (match Life.uncreated.answer .step with
    | .refused r => decide (r = .noLiveInstance)
    | .next _ => false
    | .fault _ => false) = true := by decide

/-- `in` placed at reset has a next state, whatever the environment answers. -/
theorem test_first_instruction_in : ∃ t, step (State.reset.withFetchWord 32 12) = .next t := ⟨_, rfl⟩

/-! ### Witnesses: a concrete state and operands that meet all hypotheses of a statement, one for each clause -/

/-- One `nop` and a stack of two cells: the program counter is at `ST - 1`. -/
def nopBench : State := bench [0] ⟨0, 0, 0, 0⟩ [] 2 0
/-- Two values pushed, 7 then 9, room for two more; D = 1. -/
def stackBench : State := bench [17, 0] ⟨7, 0, 0, 1⟩ [9, 7] 4 0
/-- A full stack of capacity 2. -/
def fullBench : State := bench [17, 0] ⟨7, 0, 0, 0⟩ [2, 1] 2 0
/-- An empty stack. -/
def emptyBench : State := bench [18, 3] ⟨7, 0, 0, 0⟩ [] 2 1
/-- No stack at all. -/
def bareBench (cells : List Word) : State := bench cells ⟨0, 0, 0, 0⟩ [] 0 0

/-- The invariant of a small state, from its decidable parts. -/
theorem inv_of_small {s : State} (n : Nat) (hn : s.st ≤ n ∧ s.sb ≤ n) (h1 : s.params.admissible)
    (h2 : s.sb = (s.params.n : Int) - 1) (h3 : s.st = s.sb - (s.params.cap : Int) + 1) (h4 : s.ssize ≤ s.params.cap)
    (h5 : s.mem.wf) (h6 : ∀ p ∈ s.mem, p.1 < s.params.n)
    (h7 : ∀ a < n + 1, s.params.k ≤ a → (a : Int) < s.st → s.mem.read a = 0)
    (h8 : ∀ a < n + 1, s.st ≤ (a : Int) → (a : Int) ≤ s.sp → s.mem.read a = 0) : s.Inv :=
  ⟨h1, h2, h3, h4, h5, h6, fun a ha hb => h7 a (by omega) ha hb, fun a ha hb => h8 a (by
    have hsp : s.sp = s.sb - (s.ssize : Int) := rfl
    omega) ha hb⟩

theorem nopBench_inv : nopBench.Inv := inv_of_small 3 (by decide) (by decide) (by decide) (by decide) (by decide) (by decide)
  (by decide) (by decide) (by decide)
theorem stackBench_inv : stackBench.Inv := inv_of_small 6 (by decide) (by decide) (by decide) (by decide) (by decide)
  (by decide) (by decide) (by decide) (by decide)
theorem fullBench_inv : fullBench.Inv := inv_of_small 4 (by decide) (by decide) (by decide) (by decide) (by decide)
  (by decide) (by decide) (by decide) (by decide)
theorem emptyBench_inv : emptyBench.Inv := inv_of_small 5 (by decide) (by decide) (by decide) (by decide) (by decide)
  (by decide) (by decide) (by decide) (by decide)
theorem bareBench_inv_one : (bareBench [2]).Inv := inv_of_small 2 (by decide) (by decide) (by decide) (by decide)
  (by decide) (by decide) (by decide) (by decide) (by decide)
theorem bareBench_inv_bad : (bareBench [9, 4]).Inv := inv_of_small 2 (by decide) (by decide) (by decide) (by decide)
  (by decide) (by decide) (by decide) (by decide) (by decide)
theorem bareBench_inv_good : (bareBench [16, 3]).Inv := inv_of_small 2 (by decide) (by decide) (by decide) (by decide)
  (by decide) (by decide) (by decide) (by decide) (by decide)
theorem illegalBench_inv : (bench [19] ⟨0, 0, 0, 0⟩ [] 2 0).Inv := inv_of_small 3 (by decide) (by decide) (by decide)
  (by decide) (by decide) (by decide) (by decide) (by decide) (by decide)
theorem negativeBench_inv : (bench [-1] ⟨0, 0, 0, 0⟩ [] 2 0).Inv := inv_of_small 3 (by decide) (by decide) (by decide)
  (by decide) (by decide) (by decide) (by decide) (by decide) (by decide)

/-- The clause on illegal operands of every statement R101 to R154: cells on both sides of 0..3, and a far one. -/
theorem witness_NoRegister : NoRegister 4 ∧ NoRegister (-1) ∧ NoRegister 256 := by decide

theorem witness_NopOnlyAdvances : nopBench.Inv ∧ nopBench.status = .ok ∧ nopBench.pcInRegion ∧
    nopBench.mem.read nopBench.pc.toInt.toNat = 0 ∧ nopBench.pc.toInt = nopBench.st - 1 :=
  ⟨nopBench_inv, by decide, by decide, by decide, by decide⟩

theorem witness_LoopTestsC_taken : (bench [8, 7] ⟨0, 0, -1, 0⟩ [] 4 0).reg .C ≠ 0 := by decide
theorem witness_LoopTestsC_through : (bench [8, 7] ⟨0, 0, 0, 0⟩ [] 4 0).reg .C = 0 := by decide
theorem witness_LoopTestsC_progress :
    let s := bench [8, 2] ⟨0, 0, 1, 0⟩ [] 4 0
    s.status = .ok ∧ s.pcInRegion ∧ decode s.fetchCells = .instr (.loop 2) [0] := by decide
theorem witness_LoopTestsC_outside :
    let s := bench [8, 2] ⟨0, 0, 1, 0⟩ [] 4 0
    ∃ t, s.status = .ok ∧ s.reg .C ≠ 0 ∧ ¬ (0 ≤ (2 : Word).toInt ∧ (2 : Word).toInt ≤ s.st - 1) ∧
      ¬ (0 ≤ (-1 : Word).toInt ∧ (-1 : Word).toInt ≤ s.st - 1) ∧ exec (.loop 2) s = .next t ∧
      0 < (1 : Word).toInt :=
  ⟨_, by decide, by decide, by decide, by decide, rfl, by decide⟩

theorem witness_DivTruncates : (bench [5, 1] ⟨-7, 2, 0, 0⟩ [] 4 0).reg .B ≠ 0 ∧ (bench [5, 1] ⟨-7, 0, 0, 0⟩ [] 4 0).reg .B = 0 := by
  decide

theorem witness_QuotientFitsButOnce : (-1 : Word) ≠ 0 ∧ (minW.toInt = -2 ^ 31 ∧ (-1 : Word).toInt = -1) ∧
    ¬ ((minW + 1).toInt = -2 ^ 31 ∧ (-1 : Word).toInt = -1) := by decide

/-- The two ends of the used window, and the two offsets just outside. -/
theorem witness_LoadReadsTheUsedWindow : stackBench.Inv ∧
    stackBench.inWindow (stackBench.effAddr (-1)) ∧ stackBench.inWindow (stackBench.effAddr 0) ∧
    ¬ stackBench.inWindow (stackBench.effAddr (-2)) ∧ ¬ stackBench.inWindow (stackBench.effAddr 1) :=
  ⟨stackBench_inv, by decide, by decide, by decide, by decide⟩
theorem witness_StoreWritesTheUsedWindow : stackBench.Inv ∧
    stackBench.inWindow (stackBench.effAddr (-1)) ∧ stackBench.inWindow (stackBench.effAddr 0) ∧
    ¬ stackBench.inWindow (stackBench.effAddr (-2)) ∧ ¬ stackBench.inWindow (stackBench.effAddr 1) :=
  witness_LoadReadsTheUsedWindow
theorem witness_PushFillsTheNextSlot_full : fullBench.Inv ∧ fullBench.ssize = fullBench.params.cap := ⟨fullBench_inv, by decide⟩
theorem witness_PushFillsTheNextSlot_room : stackBench.Inv ∧ stackBench.ssize ≠ stackBench.params.cap :=
  ⟨stackBench_inv, by decide⟩
theorem witness_PopFreesTheTop_empty : emptyBench.ssize = 0 := by decide
theorem witness_PopFreesTheTop_used : fullBench.Inv ∧ fullBench.ssize ≠ 0 := ⟨fullBench_inv, by decide⟩
theorem witness_PopUndoesPush : stackBench.Inv ∧ stackBench.ssize ≠ stackBench.params.cap := ⟨stackBench_inv, by decide⟩
theorem witness_WindowIsAnOffsetRange : emptyBench.ssize = 0 := by decide

theorem witness_InTakesOneDecimalAnswer : (bench.fed nopBench [.eof] []).env.decAnswers ∧ nopBench.env.decAnswers := by decide
theorem witness_GetTakesOneByteAnswer : (bench.fed nopBench [] [.byte 255]).env.byteAnswers ∧ nopBench.env.byteAnswers := by
  decide
theorem witness_PutAppendsAByte :
    (0 ≤ ((bench [15, 0] ⟨0, 0, 0, 0⟩ [] 4 0).reg .A).toInt ∧ ((bench [15, 0] ⟨255, 0, 0, 0⟩ [] 4 0).reg .A).toInt ≤ 255) ∧
    (¬ (0 ≤ ((bench [15, 0] ⟨256, 0, 0, 0⟩ [] 4 0).reg .A).toInt ∧ ((bench [15, 0] ⟨256, 0, 0, 0⟩ [] 4 0).reg .A).toInt ≤ 255)) ∧
    ¬ (0 ≤ ((bench [15, 0] ⟨-1, 0, 0, 0⟩ [] 4 0).reg .A).toInt ∧ ((bench [15, 0] ⟨-1, 0, 0, 0⟩ [] 4 0).reg .A).toInt ≤ 255) := by
  decide
theorem witness_WithheldInputHolds :
    (nopBench.withholdDec true).env.decIn = [] ∧ (nopBench.withholdDec true).env.decHeld = true ∧
    (nopBench.withholdByte true).env.byteIn = [] ∧ (nopBench.withholdByte true).env.byteHeld = true := by decide

theorem witness_StepRunsTheDecodedInstruction : stackBench.status = .ok ∧ stackBench.pcInRegion ∧
    decode stackBench.fetchCells = .instr (.push 0) [0] := by decide
theorem witness_StepRunsTheEncodedInstruction : stackBench.status = .ok ∧ stackBench.pcInRegion ∧
    ∀ (j : Nat) (w : Word), (encode (.push 0))[j]? = some w →
      stackBench.pc.toInt.toNat + j < stackBench.params.n ∧ stackBench.mem.read (stackBench.pc.toInt.toNat + j) = w := by
  refine ⟨by decide, by decide, fun j w hw => ?_⟩
  rcases j with _ | _ | j
  · simp only [encode, Instr.opcode, Instr.operands, List.getElem?_cons_zero, Option.some.injEq] at hw
    subst hw
    decide
  · simp only [encode, Instr.opcode, Instr.operands, List.getElem?_cons_succ, List.getElem?_cons_zero, Option.some.injEq] at hw
    subst hw
    decide
  · simp [encode, Instr.operands] at hw
theorem witness_StoppedCoreIsInert : (nopBench.raise .halted).status ≠ .ok ∧ (nopBench.raise .ioError).status ≠ .ok := by decide
/-- The program counter at `ST` and at -1. -/
theorem witness_InvalidAddressIsThePcCheck : nopBench.status = .ok ∧ (nopBench.jump 1).st - 1 < (nopBench.jump 1).pc.toInt ∧
    (nopBench.jump (-1)).pc.toInt < 0 ∧ ∃ t, step (nopBench.jump 1) = .next t ∧ t.status = .invalidAddress :=
  ⟨by decide, by decide, by decide, _, rfl, by decide⟩
/-- Opcode cells 19 and -1. -/
theorem witness_IllegalInstructionIsTheOpcodeCheck :
    let s := bench [19] ⟨0, 0, 0, 0⟩ [] 2 0
    let u := bench [-1] ⟨0, 0, 0, 0⟩ [] 2 0
    (s.Inv ∧ s.status = .ok ∧ s.pcInRegion ∧ 18 < (s.mem.read s.pc.toInt.toNat).toInt) ∧
    (u.Inv ∧ u.status = .ok ∧ u.pcInRegion ∧ (u.mem.read u.pc.toInt.toNat).toInt < 0) ∧
    ∃ t, step s = .next t ∧ t.status = .illegalInstruction :=
  ⟨⟨illegalBench_inv, by decide, by decide, by decide⟩, ⟨negativeBench_inv, by decide, by decide, by decide⟩, _, rfl, by decide⟩
theorem witness_IllegalOperandHasTwoCauses :
    (∃ t, exec (.swap 0 4) nopBench = .next t ∧ t.status = .illegalOperand) ∧
    (∃ t, exec (.put 0) (nopBench.setReg .A 256) = .next t ∧ t.status = .illegalOperand) ∧ nopBench.status = .ok :=
  ⟨⟨_, rfl, by decide⟩, ⟨_, rfl, by decide⟩, by decide⟩
theorem witness_InvalidStackOperationHasThreeCauses :
    (∃ t, fullBench.Inv ∧ exec (.push 0) fullBench = .next t ∧ t.status = .invalidStackOperation) ∧
    (∃ t, emptyBench.Inv ∧ exec (.pop 0) emptyBench = .next t ∧ t.status = .invalidStackOperation) ∧
    (∃ t, stackBench.Inv ∧ exec (.store 0 1) stackBench = .next t ∧ t.status = .invalidStackOperation) ∧
    stackBench.status = .ok :=
  ⟨⟨_, fullBench_inv, rfl, by decide⟩, ⟨_, emptyBench_inv, rfl, by decide⟩, ⟨_, stackBench_inv, rfl, by decide⟩, by decide⟩
theorem witness_OtherStopsHaveOneCause :
    (∃ t, exec .halt nopBench = .next t ∧ t.status = .halted) ∧ (∃ t, exec (.div 0) nopBench = .next t ∧ t.status = .divByZero) ∧
    (∃ t, exec (.in_ 0) (bench.fed nopBench [.parseFail] []) = .next t ∧ t.status = .ioError) ∧ nopBench.status = .ok :=
  ⟨⟨_, rfl, by decide⟩, ⟨_, rfl, by decide⟩, ⟨_, rfl, by decide⟩, by decide⟩
theorem witness_ErrorStopsArePrecise : ∃ t, fullBench.status = .ok ∧ step fullBench = .next t ∧ t.status.isError = true ∧
    t.status ≠ .ioError := ⟨_, by decide, rfl, by decide, by decide⟩
theorem witness_OperandBeyondMemoryIsRefused_one :
    let s := bareBench [2]
    s.Inv ∧ s.status = .ok ∧ s.pcInRegion ∧ s.pc.toInt = ((0 : Nat) : Int) ∧ (s.mem.read 0).toInt = 2 ∧ 0 + 1 = s.params.n :=
  ⟨bareBench_inv_one, by decide, by decide, by decide, by decide, by decide⟩
theorem witness_OperandBeyondMemoryIsRefused_two :
    (let s := bareBench [9, 4]
     s.Inv ∧ s.status = .ok ∧ s.pcInRegion ∧ s.pc.toInt = ((0 : Nat) : Int) ∧ (s.mem.read 0).toInt = 9 ∧ 0 + 2 = s.params.n ∧
      NoRegister (s.mem.read (0 + 1))) ∧
    (let s := bareBench [16, 3]
     s.Inv ∧ s.status = .ok ∧ s.pcInRegion ∧ s.pc.toInt = ((0 : Nat) : Int) ∧ (s.mem.read 0).toInt = 16 ∧ 0 + 2 = s.params.n ∧
      ¬ NoRegister (s.mem.read (0 + 1))) :=
  ⟨⟨bareBench_inv_bad, by decide, by decide, by decide, by decide, by decide, by decide⟩,
   ⟨bareBench_inv_good, by decide, by decide, by decide, by decide, by decide, by decide⟩⟩
theorem witness_StepAlwaysCompletes : fullBench.Inv ∧ 2 ≤ fullBench.params.cap ∧ fullBench.env.decAnswers ∧
    fullBench.env.byteAnswers := ⟨fullBench_inv, by decide, by decide, by decide⟩
theorem witness_ProgressIsStayingRunnable : ∃ t, step stackBench = .next t := ⟨_, rfl⟩

theorem witness_InstructionsWriteOnlyTheirRegisters : ∃ t, exec (.swap 0 3) stackBench = .next t ∧ ¬ mayWrite (.swap 0 3) .B :=
  ⟨_, rfl, by simp [mayWrite, regOf]⟩
theorem witness_InstructionsStoreOnlyAtTheirAddress :
    (∃ t, exec (.add 1) stackBench = .next t ∧ storeAddress (.add 1) stackBench = none) ∧
    (∃ t, exec (.store 0 0) stackBench = .next t ∧ storeAddress (.store 0 0) stackBench = some 5 ∧ ((4 : Nat) : Int) ≠ 5) :=
  ⟨⟨_, rfl, rfl⟩, ⟨_, rfl, by decide, by decide⟩⟩
theorem witness_OnlyPushAndPopResizeTheStack : ∃ t, exec (.push 0) stackBench = .next t := ⟨_, rfl⟩
theorem witness_OnlyPortInstructionsTouchTheEnvironment :
    (∃ t, exec (.add 1) stackBench = .next t) ∧ (∀ c, Instr.add 1 ≠ .in_ c) ∧ (∀ c, Instr.add 1 ≠ .get c) ∧
    (∀ c, Instr.add 1 ≠ .out c) ∧ ∀ c, Instr.add 1 ≠ .put c := ⟨⟨_, rfl⟩, by simp, by simp, by simp, by simp⟩
theorem witness_LayoutIsFixedForLife : ∃ s, Reach nopBench s ∧ s.pc = 1 := ⟨_, .step .start rfl, rfl⟩
theorem witness_StepKeepsTheInvariant : ∃ t, stackBench.Inv ∧ step stackBench = .next t := ⟨_, stackBench_inv, rfl⟩
/-- The last cell of the fetch region. -/
theorem witness_FetchRegionIsReadOnly : ∃ s, stackBench.Inv ∧ Reach stackBench s ∧ s.ssize = stackBench.ssize + 1 ∧
    ¬ stackBench.inStackRegion 1 := ⟨_, stackBench_inv, .step .start rfl, rfl, by decide⟩
theorem witness_WarmResetRestoresTheCreatedState : ∃ s, nopBench.Fresh ∧ Reach nopBench s ∧ s.pc = 1 :=
  ⟨_, ⟨nopBench_inv, rfl, rfl, rfl, rfl⟩, .step .start rfl, rfl⟩
theorem witness_WarmResetRestoresTheCreatedState_stopped : ∃ t, (nopBench.raise .ioError).status ≠ .ok ∧
    step (nopBench.raise .ioError) = .next t ∧ ∃ u, setRegister 3 7 (nopBench.raise .ioError) = .next u :=
  ⟨_, by decide, rfl, _, rfl⟩
theorem witness_OnlyTheEncodingDecodes : decode [9, 0, 5, 1] = .instr (.movr 0 5) [1] := by decide
theorem witness_BytesBecomeCells : (128 : Nat) * 2 ^ 24 =
    (0 : Byte).toNat + 2 ^ 8 * (0 : Byte).toNat + 2 ^ 16 * (0 : Byte).toNat + 2 ^ 24 * (128 : Byte).toNat := by decide
theorem witness_BadLoadsAndCreatesAreRefused : ([1, 0, 0, 0, 2] : List Byte).length % 4 ≠ 0 ∧ (-1 : Int) < 0 ∧
    (4 : Int) ≠ (Image.mk [] 5 ⟨0, 2, 6, .little⟩).sb ∧ (3 : Int) ≠ (Image.mk [] 5 ⟨0, 2, 6, .little⟩).params.cap := by decide
/-- No gap cells, and the largest memory. -/
theorem witness_CreateGivesTheResetValues : ([1, 0] : List Word).length + 2 ≤ 4 ∧ 4 ≤ Config.maxCells ∧
    ([] : List Word).length + 0 ≤ Config.maxCells := by decide
theorem witness_RunCountsAttemptedSteps : (nopBench.raise .halted).status ≠ .ok ∧ nopBench.status = .ok ∧
    ∃ c t, run 1 nopBench = .next (c, t) := ⟨by decide, by decide, _, _, rfl⟩
theorem witness_RunCountsAttemptedSteps_returns : ∀ (k : Nat) (u : State), k < (1 : Word).toInt.toNat →
    steps k nopBench = .next u → ∃ t, step u = .next t := by
  intro k u hk h
  obtain rfl : k = 0 := by
    have : (1 : Word).toInt.toNat = 1 := by decide
    omega
  cases h
  exact ⟨_, rfl⟩
theorem witness_RunResumesWhereItStopped : (0 : Word).toInt ≤ 0 ∧ (-1 : Word).toInt ≤ 0 ∧
    ∃ c t d u, 0 ≤ (1 : Word).toInt ∧ 0 ≤ (5 : Word).toInt ∧ (6 : Word).toInt = (1 : Word).toInt + (5 : Word).toInt ∧
      run 1 nopBench = .next (c, t) ∧ t.status = .ok ∧ run 5 t = .next (d, u) ∧ u.status = .invalidAddress :=
  ⟨by decide, by decide, _, _, _, _, by decide, by decide, by decide, rfl, by decide, rfl, by decide⟩
theorem witness_HostReachesRegistersByTheirId : ¬ (0 ≤ (4 : Int) ∧ (4 : Int) ≤ 3) ∧ ¬ (0 ≤ (-1 : Int) ∧ (-1 : Int) ≤ 3) := by decide
theorem witness_StepOnlyAppendsToTheSink : ∃ t, step (bench [14, 0] ⟨1, 0, 0, 0⟩ [] 4 0) = .next t := ⟨_, rfl⟩

end Sys2Proof.Tests
end

section
/-! SUPPORT. What a step does to the stack region and the layout, and the invariant it keeps (R24). -/

namespace Sys2Proof.Machine

/-! ### What a step does, seen from the stack and the memory -/

/-- The same layout and parameters (R18, R46). -/
structure SameLayout (s t : State) : Prop where
  st : t.st = s.st
  sb : t.sb = s.sb
  params : t.params = s.params

theorem SameLayout.trans {s t u : State} (h : SameLayout s t) (h' : SameLayout t u) : SameLayout s u :=
  ⟨h'.st.trans h.st, h'.sb.trans h.sb, h'.params.trans h.params⟩

/-- The same layout, memory and stack size. -/
structure KeepsStack (s t : State) : Prop where
  layout : SameLayout s t
  mem : t.mem = s.mem
  ssize : t.ssize = s.ssize

/-- One cell of the stack region written and the stack size moved so that an unused slot of `t` was unused in `s` too, or
is the cell written, with zero. -/
structure WritesStack (s t : State) (ea : Int) (v : Word) : Prop where
  layout : SameLayout s t
  mem : t.mem = s.mem.write ea.toNat v
  inRegion : s.st ≤ ea ∧ ea ≤ s.sb
  size : t.ssize ≤ s.params.cap
  unused : ∀ a : Int, a ≤ t.sp → (a ≤ s.sp ∧ a ≠ ea) ∨ (a = ea ∧ v = 0)

/-- `in` with an answer keeps layout, memory and stack size (R151). -/
theorem KeepsStack.takeDec (s : State) (e : Env) (r : Reg) (a : DecAnswer) :
    KeepsStack s (((s.advance 2).setEnv e).takeDec r a) := by
  obtain ⟨-, hssize, hst, hsb, hmem, hparams, -⟩ := ((s.advance 2).setEnv e).takeDec_keeps r a
  exact ⟨⟨hst, hsb, hparams⟩, hmem, hssize⟩

/-- `get` with an answer keeps layout, memory and stack size (R152). -/
theorem KeepsStack.takeByte (s : State) (e : Env) (r : Reg) (a : ByteAnswer) :
    KeepsStack s (((s.advance 2).setEnv e).takeByte r a) := by
  obtain ⟨-, hssize, hst, hsb, hmem, hparams, -⟩ := ((s.advance 2).setEnv e).takeByte_keeps r a
  exact ⟨⟨hst, hsb, hparams⟩, hmem, hssize⟩

/-- No instruction changes the layout (R46). -/
theorem Effect.sameLayout {i : Instr} {s t : State} (h : Effect i s t) : SameLayout s t := by
  cases h with
  | tookDec r a e => exact (KeepsStack.takeDec s e r a).layout
  | tookByte r a e => exact (KeepsStack.takeByte s e r a).layout
  | _ => exact ⟨rfl, rfl, rfl⟩

/-- An instruction keeps memory and stack size, but for `store`, `push` and `pop`, whose checks keep them inside the stack
region (R44, R132, R133). -/
theorem Effect.stack {i : Instr} {s t : State} (hs : s.Inv) (h : Effect i s t) :
    KeepsStack s t ∨ ∃ ea v, WritesStack s t ea v := by
  have hl := h.sameLayout
  have htop := hs.top
  have hsize := hs.size
  have hsp : s.sp = s.sb - (s.ssize : Int) := rfl
  cases h with
  | stored r n _ hw =>
    exact .inr ⟨_, _, hl, rfl, ⟨by omega, hw.2⟩, hsize, fun a (ha : a ≤ s.sp) => .inl ⟨ha, by omega⟩⟩
  | pushed r _ hf =>
    have hcap := mt hs.stackFull_iff.mpr hf
    refine .inr ⟨_, _, hl, rfl, by omega, Nat.lt_of_le_of_ne hsize hcap, fun a ha => .inl ?_⟩
    simp only [State.sp] at ha ⊢
    omega
  | popped r _ h0 =>
    refine .inr ⟨_, _, hl, rfl, by omega, (Nat.sub_le _ _).trans hsize, fun a ha => ?_⟩
    by_cases hea : a = s.sp + 1
    · exact .inr ⟨hea, rfl⟩
    · refine .inl ⟨?_, hea⟩
      simp only [State.sp] at ha hea ⊢
      omega
  | tookDec r a e => exact .inl (.takeDec s e r a)
  | tookByte r a e => exact .inl (.takeByte s e r a)
  | _ => exact .inl ⟨hl, rfl, rfl⟩

/-- A step that has a next state is an instruction's meaning, or the front of the step settled status and program counter
(R71). -/
theorem step_next {s t : State} (h : step s = .next t) :
    (∃ i, exec i s = .next t) ∨ ∃ pc status, t = { s with pc := pc, status := status } := by
  rcases step_cases s with
    ⟨-, hr⟩ | ⟨-, -, hr⟩ | ⟨-, -, ⟨i, rest, -, hr⟩ | ⟨-, hr⟩ | ⟨op, -, hr⟩ | ⟨r, -, hr⟩ | ⟨-, hr⟩⟩
  · exact .inr ⟨_, _, Host.Outcome.next.inj (h.symm.trans hr)⟩
  · exact .inr ⟨_, _, Host.Outcome.next.inj (h.symm.trans hr)⟩
  · exact .inl ⟨i, hr ▸ h⟩
  · cases h.symm.trans hr
  · exact .inr ⟨_, _, Host.Outcome.next.inj (h.symm.trans hr)⟩
  · exact .inr ⟨_, _, Host.Outcome.next.inj (h.symm.trans hr)⟩
  · cases h.symm.trans hr

/-- A step keeps memory and stack size, or writes one cell of the stack region. -/
theorem step_stack {s t : State} (hs : s.Inv) (h : step s = .next t) :
    KeepsStack s t ∨ ∃ ea v, WritesStack s t ea v := by
  rcases step_next h with ⟨i, hi⟩ | ⟨pc, status, rfl⟩
  · exact (exec_effect hi).stack hs
  · exact .inl ⟨⟨rfl, rfl, rfl⟩, rfl, rfl⟩

/-! ### The invariant (R24) -/

/-- The invariant speaks of layout, memory and stack size alone. -/
theorem State.Inv.of_keepsStack {s t : State} (hs : s.Inv) (h : KeepsStack s t) : t.Inv := by
  obtain ⟨⟨hst, hsb, hparams⟩, hmem, hssize⟩ := h
  have hsp : t.sp = s.sp := by rw [State.sp, hsb, hssize, State.sp]
  constructor
  all_goals simp only [hst, hsb, hparams, hmem, hssize, hsp]
  exacts [hs.admissible, hs.bottom, hs.top, hs.size, hs.memWf, hs.memBound, hs.gapZero, hs.unusedZero]

/-- Under the invariant the stack region starts at a cell that exists, after the program's (R31). -/
theorem State.Inv.k_le_st {s : State} (hs : s.Inv) : (s.params.k : Int) ≤ s.st := by
  have hadm := hs.admissible.1
  have hbottom := hs.bottom
  have htop := hs.top
  omega

/-- A write inside the stack region leaves every cell outside it alone (R44). -/
theorem WritesStack.read_outside {s t : State} {ea : Int} {v : Word} (hs : s.Inv) (h : WritesStack s t ea v) {a : Nat}
    (ha : ¬ s.inStackRegion a) : t.mem.read a = s.mem.read a := by
  have hin := h.inRegion
  have hst := hs.k_le_st
  rw [h.mem]
  exact Memory.read_write_ne _ _ _ _ (by omega)

/-- A write of one stack cell keeps the invariant. -/
theorem State.Inv.of_writesStack {s t : State} {ea : Int} {v : Word} (hs : s.Inv) (h : WritesStack s t ea v) : t.Inv := by
  obtain ⟨hst, hsb, hparams⟩ := h.layout
  have hin := h.inRegion
  have hadm := hs.admissible.1
  have hbottom := hs.bottom
  have htop := hs.top
  constructor
  case admissible => exact hparams ▸ hs.admissible
  case bottom => rw [hsb, hparams, hbottom]
  case top => rw [hst, hsb, hparams, htop]
  case size => exact hparams ▸ h.size
  case memWf => exact h.mem ▸ Memory.wf_write _ _ _ hs.memWf
  case memBound =>
    intro p hp
    rw [hparams]
    rcases Memory.mem_write _ _ _ p (h.mem ▸ hp) with he | hp
    · omega
    · exact hs.memBound p hp
  case gapZero =>
    intro a hk ha
    rw [hparams] at hk
    rw [hst] at ha
    rw [h.read_outside hs (by omega)]
    exact hs.gapZero a hk ha
  case unusedZero =>
    intro a hlo hhi
    rw [hst] at hlo
    rw [h.mem, Memory.read_write _ _ _ _ hs.memWf]
    rcases h.unused a hhi with ⟨hsp, hne⟩ | ⟨rfl, rfl⟩
    · rw [if_neg (by omega)]
      exact hs.unusedZero a hlo hsp
    · exact if_pos rfl

/-- Every step keeps the invariant (R24). -/
theorem State.Inv.after_step {s t : State} (hs : s.Inv) (h : step s = .next t) : t.Inv := by
  rcases step_stack hs h with hk | ⟨ea, v, hw⟩
  · exact hs.of_keepsStack hk
  · exact hs.of_writesStack hw

/-- Settles O46: a step keeps the stack or writes one cell of its region, and both keep the invariant. -/
theorem stepKeepsTheInvariant : Obligations.StepKeepsTheInvariant := fun _ _ hs h => hs.after_step h

end Sys2Proof.Machine
end

section
/-! SUPPORT. Frames of the registers and the stack size (R12, R17, R76), the read-only fetch region over the life of a
created CORE (R27, R44), and the host's reach of the registers. -/

namespace Sys2Proof.Machine

/-- Settles O42: of the shapes of a next state only those of `push` and `pop` set the stack size. -/
theorem onlyPushAndPopResizeTheStack : Obligations.OnlyPushAndPopResizeTheStack := by
  intro i s t h
  cases exec_effect h with
  | pushed r hi => exact .inr (.inl ⟨_, hi, rfl⟩)
  | popped r hi h0 => exact .inr (.inr ⟨_, hi, Nat.sub_one_add_one h0⟩)
  | tookDec r a e => exact .inl (KeepsStack.takeDec s e r a).ssize
  | tookByte r a e => exact .inl (KeepsStack.takeByte s e r a).ssize
  | _ => exact .inl rfl

/-! ### Registers -/

/-- A register update leaves every other register alone. -/
theorem State.reg_setReg_ne (s : State) {r q : Reg} (v : Word) (h : q ≠ r) : (s.setReg r v).reg q = s.reg q := by
  rw [State.reg_setReg, if_neg h]

/-- The end of input writes C and the target alone (R151, R152). -/
theorem State.reg_endOfInput_ne (s : State) {r q : Reg} (hr : q ≠ r) (hC : q ≠ .C) : (s.endOfInput r).reg q = s.reg q := by
  rw [State.endOfInput, State.reg_setReg_ne _ _ hr, State.reg_setReg_ne _ _ hC]

/-- An answer of the decimal port reaches C and the target alone (R151). -/
theorem State.reg_takeDec_ne (s : State) {r q : Reg} (a : DecAnswer) (hr : q ≠ r) (hC : q ≠ .C) :
    (s.takeDec r a).reg q = s.reg q := by
  cases a with
  | int v => exact s.reg_setReg_ne v hr
  | parseFail => rfl
  | eof => exact s.reg_endOfInput_ne hr hC

/-- An answer of the byte port reaches C and the target alone (R152). -/
theorem State.reg_takeByte_ne (s : State) {r q : Reg} (a : ByteAnswer) (hr : q ≠ r) (hC : q ≠ .C) :
    (s.takeByte r a).reg q = s.reg q := by
  cases a with
  | byte b => exact s.reg_setReg_ne _ hr
  | eof => exact s.reg_endOfInput_ne hr hC

/-- Settles O40: by the shapes of a next state; the two input instructions reach their target and C. -/
theorem instructionsWriteOnlyTheirRegisters : Obligations.InstructionsWriteOnlyTheirRegisters := by
  intro i s t q h hq
  cases exec_effect h with
  | wrote k x hx => exact hx q hq
  | popped r hi =>
    subst hi
    exact Regs.read_write_ne _ _ _ _ fun e => hq (by simp [mayWrite, e])
  | tookDec r a e hi =>
    subst hi
    simp only [mayWrite, regOf_cell, Option.some.injEq, not_or] at hq
    exact State.reg_takeDec_ne _ a (Ne.symm hq.1) hq.2
  | tookByte r a e hi =>
    subst hi
    simp only [mayWrite, regOf_cell, Option.some.injEq, not_or] at hq
    exact State.reg_takeByte_ne _ a (Ne.symm hq.1) hq.2
  | _ => rfl

/-- Settles O2: the read-after-write law of the register file. -/
theorem registersNeitherAliasNorDiscard : Obligations.RegistersNeitherAliasNorDiscard := State.reg_setReg

/-- A host's id that a register has names that register (R12). -/
theorem hostReg_cell (r : Reg) : hostReg r.cell.toInt = some r := by cases r <;> rfl

/-- A host's id outside 0..3 names none (R12, D21). -/
theorem hostReg_eq_none {id : Int} (h : ¬ (0 ≤ id ∧ id ≤ 3)) : hostReg id = none := if_neg h

/-- Settles O59: a host's call is a register operation where the id names a register, else refused. -/
theorem hostReachesRegistersByTheirId : Obligations.HostReachesRegistersByTheirId := by
  refine ⟨fun s r v => ?_, fun s id v h => ?_⟩
  · simp [getRegister, setRegister, hostReg_cell, State.setReg]
  · simp [getRegister, setRegister, hostReg_eq_none h]

/-- A register write of the host that is not refused writes some register. -/
theorem setRegister_next {id : Int} {v : Word} {s t : State} (h : setRegister id v s = .next t) : ∃ r, t = s.setReg r v := by
  unfold setRegister at h
  split at h
  · next r _ => cases h; exact ⟨r, rfl⟩
  · cases h

/-! ### The life of a created CORE (R209) -/

/-- Nothing in the life of a created CORE changes its layout (R46, R204). -/
theorem Reach.sameLayout {c s : State} (h : Reach c s) : SameLayout c s := by
  induction h with
  | start => exact ⟨rfl, rfl, rfl⟩
  | step _ hstep ih =>
    rcases step_next hstep with ⟨i, hi⟩ | ⟨pc, status, rfl⟩
    · exact ih.trans (exec_effect hi).sameLayout
    · exact ih.trans ⟨rfl, rfl, rfl⟩
  | setRegister id v _ hset ih =>
    obtain ⟨r, rfl⟩ := setRegister_next hset
    exact ih.trans ⟨rfl, rfl, rfl⟩
  | reset _ ih => exact ih.trans ⟨rfl, rfl, rfl⟩
  | environment e _ ih => exact ih.trans ⟨rfl, rfl, rfl⟩

/-- The warm reset keeps the invariant (R203, R24). -/
theorem State.Inv.after_warmReset {s : State} (hs : s.Inv) : s.warmReset.Inv where
  admissible := hs.admissible
  bottom := hs.bottom
  top := hs.top
  size := Nat.zero_le _
  memWf := Memory.wf_clear _ _ _ hs.memWf
  memBound p hp := hs.memBound p (List.mem_of_mem_filter hp)
  gapZero a hk ha := by
    rw [State.warmReset_mem, Memory.read_clear, hs.gapZero a hk ha, ite_self]
  unusedZero a hlo hhi := by
    rw [State.warmReset_mem, Memory.read_clear]
    split
    · rfl
    · next hne =>
      refine hs.unusedZero a hlo ?_
      simp only [State.sp, State.warmReset_sb, State.warmReset_ssize] at hhi hne ⊢
      omega

/-- The warm reset leaves every cell outside the stack region alone (R203). -/
theorem State.Inv.read_warmReset_outside {s : State} (hs : s.Inv) {a : Nat} (ha : ¬ s.inStackRegion a) :
    s.warmReset.mem.read a = s.mem.read a := by
  have htop := hs.top
  have hsize := hs.size
  have hsp : s.sp = s.sb - (s.ssize : Int) := rfl
  rw [State.warmReset_mem, Memory.read_clear, if_neg (by omega)]

/-- The invariant holds over the whole life of a CORE it holds of at the start (R24). -/
theorem Reach.inv {c s : State} (hc : c.Inv) (h : Reach c s) : s.Inv := by
  induction h with
  | start => exact hc
  | step _ hstep ih => exact ih.after_step hstep
  | setRegister id v _ hset ih =>
    obtain ⟨r, rfl⟩ := setRegister_next hset
    exact ih.of_keepsStack ⟨⟨rfl, rfl, rfl⟩, rfl, rfl⟩
  | reset _ ih => exact ih.after_warmReset
  | environment e _ ih => exact ih.of_keepsStack ⟨⟨rfl, rfl, rfl⟩, rfl, rfl⟩

/-- No step changes a cell outside the stack region (R44). -/
theorem step_read_outside {s t : State} (hs : s.Inv) (h : step s = .next t) {a : Nat} (ha : ¬ s.inStackRegion a) :
    t.mem.read a = s.mem.read a := by
  rcases step_stack hs h with hk | ⟨ea, v, hw⟩
  · rw [hk.mem]
  · exact hw.read_outside hs ha

/-- Settles O47, by induction on the life of the CORE, whose stack region stays where it is. -/
theorem fetchRegionIsReadOnly : Obligations.FetchRegionIsReadOnly := by
  intro c s hc h a ha
  have houtside : ∀ {u}, Reach c u → ¬ u.inStackRegion a := fun hu => by
    rwa [State.inStackRegion, hu.sameLayout.st, hu.sameLayout.sb]
  induction h with
  | start => rfl
  | step hr hstep ih => exact (step_read_outside (hr.inv hc) hstep (houtside hr)).trans ih
  | setRegister id v _ hset ih =>
    obtain ⟨r, rfl⟩ := setRegister_next hset
    exact ih
  | reset hr ih => exact ((hr.inv hc).read_warmReset_outside (houtside hr)).trans ih
  | environment e _ ih => exact ih

end Sys2Proof.Machine
end

section
/-! SUPPORT. The sink (R23, R150): a step appends at most one event and does not look at what stands in it. -/

namespace Sys2Proof.Machine

@[simp] theorem State.withSink_status (s : State) (k : List OutEvent) : (s.withSink k).status = s.status := rfl
@[simp] theorem State.withSink_reg (s : State) (k : List OutEvent) (q : Reg) : (s.withSink k).reg q = s.reg q := rfl
@[simp] theorem State.withSink_sp (s : State) (k : List OutEvent) : (s.withSink k).sp = s.sp := rfl
@[simp] theorem State.withSink_effAddr (s : State) (k : List OutEvent) (n : Word) :
    (s.withSink k).effAddr n = s.effAddr n := rfl
@[simp] theorem State.withSink_memRead (s : State) (k : List OutEvent) (a : Int) : (s.withSink k).memRead a = s.memRead a := rfl
@[simp] theorem State.withSink_advance (s : State) (k : List OutEvent) (w : Word) :
    (s.withSink k).advance w = (s.advance w).withSink k := rfl

/-- A memory write does not look at the sink. -/
theorem State.withSink_memWrite (s : State) (k : List OutEvent) (a : Int) (v : Word) :
    (s.withSink k).memWrite a v = (s.memWrite a v).map (·.withSink k) := by
  unfold State.memWrite
  rw [apply_ite (Option.map _)]
  rfl

/-- A memory write leaves the sink as it is. -/
theorem State.sink_of_memWrite {s t : State} {a : Int} {v : Word} (h : s.memWrite a v = some t) : t.env.sink = s.env.sink := by
  rw [(State.memWrite_eq_some h).2]

/-- The cells the next instruction is read from do not depend on the sink. -/
theorem State.withSink_cellsFrom (s : State) (k : List OutEvent) (a j : Nat) :
    (s.withSink k).cellsFrom a j = s.cellsFrom a j := by
  induction j generalizing a with
  | zero => rfl
  | succ j ih =>
    rw [State.cellsFrom, State.cellsFrom, ih]
    rfl

@[simp] theorem State.withSink_fetchCells (s : State) (k : List OutEvent) : (s.withSink k).fetchCells = s.fetchCells :=
  s.withSink_cellsFrom k _ _

/-- The decimal port's answer does not depend on the sink, nor does asking change it (log entry 17). -/
theorem State.withSink_askDec (s : State) (k : List OutEvent) :
    (s.withSink k).env.askDec = s.env.askDec.map fun p => (p.1, { p.2 with sink := k }) := by
  obtain ⟨_, _, _, _, _, _, _, _, ⟨_ | _, _ | _, _, _, _, _, _⟩⟩ := s <;> rfl

/-- The byte port's answer does not depend on the sink, nor does asking change it (log entry 17). -/
theorem State.withSink_askByte (s : State) (k : List OutEvent) :
    (s.withSink k).env.askByte = s.env.askByte.map fun p => (p.1, { p.2 with sink := k }) := by
  obtain ⟨_, _, _, _, _, _, _, _, ⟨_, _, _, _ | _, _ | _, _, _⟩⟩ := s <;> rfl

/-- A decimal answer leaves the sink as it is. -/
theorem Env.sink_of_askDec {e f : Env} {a : DecAnswer} (h : e.askDec = some (a, f)) : f.sink = e.sink := by
  rcases e.askDec_cases with ⟨_, _, -, hr⟩ | ⟨-, -, hr⟩ | ⟨-, -, hr⟩ <;> rw [hr] at h <;> cases h <;> rfl

/-- A byte answer leaves the sink as it is. -/
theorem Env.sink_of_askByte {e f : Env} {a : ByteAnswer} (h : e.askByte = some (a, f)) : f.sink = e.sink := by
  rcases e.askByte_cases with ⟨_, _, -, hr⟩ | ⟨-, -, hr⟩ | ⟨-, -, hr⟩ <;> rw [hr] at h <;> cases h <;> rfl

/-- What `in` does with an answer does not depend on the sink (R151). -/
theorem State.withSink_takeDec (s : State) (k : List OutEvent) (r : Reg) (a : DecAnswer) :
    (s.withSink k).takeDec r a = (s.takeDec r a).withSink k := by cases a <;> rfl

/-- What `get` does with an answer does not depend on the sink (R152). -/
theorem State.withSink_takeByte (s : State) (k : List OutEvent) (r : Reg) (a : ByteAnswer) :
    (s.withSink k).takeByte r a = (s.takeByte r a).withSink k := by cases a <;> rfl

/-- The answer `o` of a state with sink `old` appends at most one event to it, and `p` is the same answer with `sink`
written before in place of `old`. -/
def Appends (old sink : List OutEvent) (o p : Out) : Prop :=
  ∀ t, o = .next t → ∃ new : List OutEvent,
    new.length ≤ 1 ∧ t.env.sink = old ++ new ∧ p = .next (t.withSink (sink ++ new))

/-- A next state that leaves the sink alone. -/
theorem Appends.silent {old sink : List OutEvent} {t u : State} (h : t.env.sink = old) (hu : u = t.withSink sink) :
    Appends old sink (.next t) (.next u) := by
  rintro _ ⟨⟩
  exact ⟨[], Nat.zero_le _, by rw [h, List.append_nil], by rw [hu, List.append_nil]⟩

/-- A next state with one event more. -/
theorem Appends.emit (s : State) (sink : List OutEvent) (o : OutEvent) :
    Appends s.env.sink sink (.next (s.emit o)) (.next ((s.withSink sink).emit o)) := by
  rintro _ ⟨⟩
  exact ⟨[o], le_rfl, rfl, rfl⟩

/-- A fault has no next state. -/
theorem Appends.fault {old sink : List OutEvent} {f : Fault} {p : Out} : Appends old sink (.fault f) p := nofun

/-- A refusal has no next state. -/
theorem Appends.refused {old sink : List OutEvent} {r : Refusal} {p : Out} : Appends old sink (.refused r) p := nofun

/-- The two branches of a check that does not look at the sink. -/
theorem Appends.ite {old sink : List OutEvent} {c : Prop} [Decidable c] {o₁ o₂ p₁ p₂ : Out}
    (h₁ : Appends old sink o₁ p₁) (h₂ : Appends old sink o₂ p₂) :
    Appends old sink (if c then o₁ else o₂) (if c then p₁ else p₂) := by
  split
  · exact h₁
  · exact h₂

/-- A register operand: either its handler goes on, or ILLEGAL_OPERAND is raised (R73). -/
theorem Appends.operand {s : State} {sink : List OutEvent} {k l : Reg → Out} (c w : Word)
    (h : ∀ r, Appends s.env.sink sink (k r) (l r)) :
    Appends s.env.sink sink (withReg c (s.advance w) k) (withReg c ((s.withSink sink).advance w) l) := by
  unfold withReg
  split
  · exact h _
  · exact .silent rfl rfl

/-- Every instruction appends at most one event and does the same whatever the sink holds. -/
theorem exec_appends (i : Instr) (s : State) (sink : List OutEvent) :
    Appends s.env.sink sink (exec i s) (exec i (s.withSink sink)) := by
  cases i with
  | nop => exact .silent rfl rfl
  | halt => exact .silent rfl rfl
  | add c => exact .operand c 2 fun r => .silent rfl rfl
  | sub c => exact .operand c 2 fun r => .silent rfl rfl
  | mul c => exact .operand c 2 fun r => .silent rfl rfl
  | div c => exact .operand c 2 fun r => .ite (.silent rfl rfl) (.silent rfl rfl)
  | inc c => exact .operand c 2 fun r => .silent rfl rfl
  | dec c => exact .operand c 2 fun r => .silent rfl rfl
  | loop n =>
    refine .silent ?_ ?_
    · split <;> rfl
    · rw [apply_ite (State.withSink · sink)]
      rfl
  | movr c n => exact .operand c 2 fun r => .silent rfl rfl
  | load c n =>
    refine .operand c 2 fun r => .ite ?_ (.silent rfl rfl)
    simp only [State.withSink_effAddr, State.withSink_memRead]
    cases s.memRead (s.effAddr n) with
    | none => exact .fault
    | some v => exact .silent rfl rfl
  | store c n =>
    refine .operand c 2 fun r => .ite ?_ (.silent rfl rfl)
    simp only [State.withSink_advance, State.withSink_memWrite, State.withSink_effAddr, State.withSink_reg]
    cases h : (s.advance 3).memWrite (s.effAddr n) (s.reg r) with
    | none => exact .fault
    | some t =>
      have hsink := State.sink_of_memWrite h
      exact .silent hsink rfl
  | in_ c =>
    refine .operand c 2 fun r => ?_
    simp only [State.withSink_askDec, State.withSink_advance]
    cases h : s.env.askDec with
    | none => exact .fault
    | some p =>
      refine .silent ?_ (((s.advance 2).setEnv p.2).withSink_takeDec sink r p.1)
      obtain ⟨-, -, -, -, -, -, henv⟩ := ((s.advance 2).setEnv p.2).takeDec_keeps r p.1
      rw [henv]
      exact Env.sink_of_askDec h
  | get c =>
    refine .operand c 2 fun r => ?_
    simp only [State.withSink_askByte, State.withSink_advance]
    cases h : s.env.askByte with
    | none => exact .fault
    | some p =>
      refine .silent ?_ (((s.advance 2).setEnv p.2).withSink_takeByte sink r p.1)
      obtain ⟨-, -, -, -, -, -, henv, -⟩ := ((s.advance 2).setEnv p.2).takeByte_keeps r p.1
      rw [henv]
      exact Env.sink_of_askByte h
  | out c => exact .operand c 2 fun r => .emit (s.advance 2) sink _
  | put c => exact .operand c 2 fun r => .ite (.emit (s.advance 2) sink _) (.silent rfl rfl)
  | swap c d => exact .operand c 2 fun p => .operand d 3 fun q => .silent rfl rfl
  | push c =>
    refine .operand c 2 fun r => .ite (.silent rfl rfl) ?_
    simp only [State.withSink_advance, State.withSink_memWrite, State.withSink_sp, State.withSink_reg]
    cases h : (s.advance 2).memWrite s.sp (s.reg r) with
    | none => exact .fault
    | some t =>
      have hsink := State.sink_of_memWrite h
      exact .silent hsink rfl
  | pop c =>
    refine .operand c 2 fun r => .ite (.silent rfl rfl) ?_
    simp only [State.withSink_advance, State.withSink_memWrite, State.withSink_sp, State.withSink_memRead]
    cases s.memRead (s.sp + 1) with
    | none => exact .fault
    | some v =>
      cases h : (s.advance 2).memWrite (s.sp + 1) 0 with
      | none => exact .fault
      | some t =>
        have hsink := State.sink_of_memWrite h
        exact .silent hsink rfl

/-- Every step appends at most one event and does the same whatever the sink holds: the front of the step does not look
at the sink either. -/
theorem step_appends (s : State) (sink : List OutEvent) : Appends s.env.sink sink (step s) (step (s.withSink sink)) := by
  by_cases hs : s.status = .ok
  · by_cases hp : s.pcInRegion
    · have hp' : (s.withSink sink).pcInRegion := hp
      simp only [step, fetch, State.withSink_status, State.withSink_fetchCells, hs, ne_eq, not_true_eq_false, if_false,
        if_pos hp, if_pos hp']
      cases decode s.fetchCells with
      | instr i rest => exact exec_appends i s sink
      | noCell => exact .fault
      | illegalOpcode op => exact .silent rfl rfl
      | illegalRegister r => exact .silent rfl rfl
      | missingOperand => exact .refused
    · have hp' : ¬ (s.withSink sink).pcInRegion := hp
      rw [step, fetch_outside hs hp, step, fetch_outside (s := s.withSink sink) hs hp']
      exact .silent rfl rfl
  · rw [step, fetch_stopped hs, step, fetch_stopped (s := s.withSink sink) hs]
    exact .silent rfl rfl

/-- Settles O60: `Appends` of a step and the same step with another sink. -/
theorem stepOnlyAppendsToTheSink : Obligations.StepOnlyAppendsToTheSink := fun s t sink h => step_appends s sink t h

end Sys2Proof.Machine
end

section
/-! SUPPORT. Load and create (R25, R200, R202): the bytes of cells load as the cells, and lie in memory one after another. -/

namespace Sys2Proof

/-! ### The program binary (R38) -/

/-- The four bytes of a cell, weighted, are its value. -/
theorem sum_byteOfCell (w : Word) :
    (byteOfCell w 0).toNat + 256 * (byteOfCell w 1).toNat + 65536 * (byteOfCell w 2).toNat +
      16777216 * (byteOfCell w 3).toNat = w.toNat := by
  have hw : w.toNat < 4294967296 := w.isLt
  simp only [byteOfCell, BitVec.toNat_ofNat, Nat.reducePow]
  omega

/-- The bytes of a list of cells load as the cells (R38). -/
theorem cellsOfBytes_bytesOfCells (order : ByteOrder) (cs : List Word) :
    cellsOfBytes order (bytesOfCells order cs) = some cs := by
  induction cs with
  | nil => rfl
  | cons w cs ih =>
    simp only [bytesOfCells] at ih
    cases order <;>
      simp [bytesOfCells, bytesOfCell, cellsOfBytes, cellOfBytes, sum_byteOfCell, ih]

end Sys2Proof

namespace Sys2Proof.Machine

/-! ### The memory a load leaves -/

/-- What a run of cells written from index `a` on reads as. -/
theorem Memory.read_writeAll (m : Memory) (a i : Nat) (cs : List Word) (hm : m.wf) :
    (m.writeAll a cs).read i = if a ≤ i ∧ i < a + cs.length then cs.getD (i - a) 0 else m.read i := by
  induction cs generalizing m a with
  | nil => simp [Memory.writeAll]
  | cons c cs ih =>
    rw [Memory.writeAll, ih _ _ (Memory.wf_write _ _ _ hm), Memory.read_write _ _ _ _ hm, List.length_cons]
    rcases lt_trichotomy i a with hlt | rfl | hgt
    · rw [if_neg (by omega), if_neg (by omega), if_neg (by omega)]
    · rw [if_neg (by omega), if_pos rfl, if_pos (by omega), Nat.sub_self, List.getD_cons_zero]
    · obtain ⟨j, rfl⟩ := Nat.exists_eq_add_of_lt hgt
      rw [if_neg (c := a + j + 1 = a) (by omega), show a + j + 1 - a = j + 1 by omega, List.getD_cons_succ,
        show a + j + 1 - (a + 1) = j by omega]
      exact if_congr (by omega) rfl rfl

/-- A run of cells written lists no index but theirs and the old ones. -/
theorem Memory.mem_writeAll (m : Memory) (a : Nat) (cs : List Word) (p : Nat × Word) (h : p ∈ m.writeAll a cs) :
    p.1 < a + cs.length ∨ p ∈ m := by
  induction cs generalizing m a with
  | nil => exact .inr h
  | cons c cs ih =>
    rw [List.length_cons]
    rcases ih _ _ h with hlt | hp
    · exact .inl (by omega)
    · rcases Memory.mem_write _ _ _ _ hp with rfl | hp
      · exact .inl (by omega)
      · exact .inr hp

/-- The memory of a program is its cells in file order from cell 0, and zero after them (R200). -/
theorem Memory.read_program (cs : List Word) (a : Nat) : (Memory.writeAll [] 0 cs).read a = cs.getD a 0 := by
  rw [Memory.read_writeAll _ _ _ _ ⟨.nil, nofun⟩]
  split
  · rfl
  · exact (List.getD_eq_default _ _ (by omega)).symm

/-! ### The state after create (R25) -/

/-- What `Load` makes of a program for admissible parameters (R200). -/
def programImage (order : ByteOrder) (cs : List Word) (cap n : Nat) : Image :=
  ⟨Memory.writeAll [] 0 cs, (n : Int) - 1, ⟨cs.length, cap, n, order⟩⟩

/-- The state `create` makes of it (R25). -/
def createdState (order : ByteOrder) (cs : List Word) (cap n : Nat) (env : Env) : State where
  regs := ⟨0, 0, 0, 0⟩
  pc := 0
  status := .ok
  ssize := 0
  st := (n : Int) - 1 - cap + 1
  sb := (n : Int) - 1
  mem := Memory.writeAll [] 0 cs
  params := ⟨cs.length, cap, n, order⟩
  env := env

section
variable (order : ByteOrder) (cs : List Word) (cap n : Nat) (env : Env)

/-- The binary of a program loads for every admissible capacity and memory size (R200). -/
theorem load_bytesOfCells (hcap : cs.length + cap ≤ n) (hn : n ≤ Config.maxCells) :
    load order (bytesOfCells order cs) cap n = .next (programImage order cs cap n) := by
  unfold load
  rw [cellsOfBytes_bytesOfCells]
  exact if_pos ⟨by omega, by omega, hn⟩

/-- `create` with the load's own bottom index and capacity is not refused (R202). -/
theorem create_programImage : create (programImage order cs cap n) (programImage order cs cap n).sb cap env =
    .next (createdState order cs cap n env) := if_pos ⟨rfl, rfl⟩

/-- A created state meets the invariant (R24): past the program every cell is zero. -/
theorem inv_createdState (hcap : cs.length + cap ≤ n) (hn : n ≤ Config.maxCells) :
    (createdState order cs cap n env).Inv where
  admissible := ⟨hcap, hn⟩
  bottom := rfl
  top := rfl
  size := Nat.zero_le _
  memWf := Memory.wf_writeAll _ _ _ ⟨.nil, nofun⟩
  memBound p hp := by
    rcases Memory.mem_writeAll _ _ _ _ hp with hlt | hp
    · show p.1 < n
      omega
    · cases hp
  gapZero a hk _ := (Memory.read_program cs a).trans (List.getD_eq_default _ _ hk)
  unusedZero a hst _ := by
    refine (Memory.read_program cs a).trans (List.getD_eq_default _ _ ?_)
    simp only [createdState] at hst
    omega

end

/-- Settles O55: the binary loads as `programImage` and `create` makes `createdState` of it. -/
theorem createGivesTheResetValues : Obligations.CreateGivesTheResetValues := by
  intro order cs cap n env hcap hn
  refine ⟨_, _, load_bytesOfCells order cs cap n hcap hn, create_programImage order cs cap n env,
    ⟨inv_createdState order cs cap n env hcap hn, rfl, rfl, rfl, rfl⟩, rfl, rfl, rfl, rfl, rfl, ?_, rfl, rfl,
    Memory.read_program cs⟩
  simp only [createdState]
  omega

/-- The state after reset is the created state of an empty program (log entry 3). -/
theorem reset_eq_createdState : State.reset = createdState .little [] 256 65536 Env.fresh := rfl

/-- Settles O45: the state after reset is a created one. -/
theorem resetMeetsTheInvariant : Obligations.ResetMeetsTheInvariant := by
  unfold Obligations.ResetMeetsTheInvariant
  rw [reset_eq_createdState]
  exact inv_createdState _ _ _ _ _ (by decide) (by decide)

/-- Settles O56: `State.reset` is the created state of the empty program. -/
theorem resetIsLoadThenCreate : Obligations.ResetIsLoadThenCreate := by
  refine ⟨programImage .little [] 256 65536, load_bytesOfCells .little [] 256 65536 (by decide) (by decide), ?_⟩
  rw [reset_eq_createdState]
  exact create_programImage .little [] 256 65536 Env.fresh

end Sys2Proof.Machine
end

section
/-! SUPPORT. Memory as program and stack (20_memory.md): the bytes of a cell (R38), the window as an offset range (R37), the
fixed layout (R46), operand cells beyond memory (R35), and the steps that always complete (R81). -/

namespace Sys2Proof

/-! ### Cells read signed (R38) -/

/-- A pattern of 32 bits read signed is `u` or `u - 2^32`. -/
theorem toInt_ofNat_of_lt {u : Nat} (h : u < 2 ^ 32) :
    (BitVec.ofNat 32 u).toInt = if u < 2 ^ 31 then (u : Int) else (u : Int) - 2 ^ 32 := by
  rw [BitVec.toInt_eq_toNat_cond, BitVec.toNat_ofNat, Nat.mod_eq_of_lt h]
  split <;> split <;> omega

/-- The cell of four bytes in little order, read signed. -/
theorem toInt_cellOfBytes_little (b0 b1 b2 b3 : Byte) (u : Nat)
    (hu : u = b0.toNat + 2 ^ 8 * b1.toNat + 2 ^ 16 * b2.toNat + 2 ^ 24 * b3.toNat) :
    (cellOfBytes .little b0 b1 b2 b3).toInt = if u < 2 ^ 31 then (u : Int) else (u : Int) - 2 ^ 32 := by
  have h0 := b0.isLt
  have h1 := b1.isLt
  have h2 := b2.isLt
  have h3 := b3.isLt
  rw [← toInt_ofNat_of_lt (by omega), hu]
  rfl

/-- Big order is little order of the bytes reversed. -/
theorem cellOfBytes_big (b0 b1 b2 b3 : Byte) : cellOfBytes .big b0 b1 b2 b3 = cellOfBytes .little b3 b2 b1 b0 := rfl

/-- Settles O53: the little order by its weighted sum, the big order as the little one reversed. -/
theorem bytesBecomeCells : Obligations.BytesBecomeCells := fun b0 b1 b2 b3 =>
  ⟨toInt_cellOfBytes_little b0 b1 b2 b3, fun u hu =>
    cellOfBytes_big b0 b1 b2 b3 ▸ toInt_cellOfBytes_little b3 b2 b1 b0 u hu⟩

/-! ### Opcode cells by format (R51, R55) -/

/-- A cell whose signed value is one of `0 .. m` is that numeral's pattern. -/
theorem eq_ofNat_of_between {c : Word} {m : Nat} (h : 0 ≤ c.toInt ∧ c.toInt ≤ m) : ∃ k ≤ m, c = BitVec.ofNat 32 k := by
  rw [BitVec.toInt_eq_toNat_cond] at h
  refine ⟨c.toNat, ?_, by simp⟩
  split at h <;> omega

/-- A cell whose signed value is none of `0 .. m` is beyond `m` unsigned too. -/
theorem toNat_of_not_between {c : Word} {m : Nat} (h : ¬ (0 ≤ c.toInt ∧ c.toInt ≤ m)) (hm : m < 2 ^ 31) :
    ∃ n, c.toNat = n + (m + 1) := by
  rw [BitVec.toInt_eq_toNat_cond] at h
  refine Nat.exists_eq_add_of_le' ?_
  split at h <;> omega

/-- A cell names no register exactly when its signed value is outside 0..3 (R53). -/
theorem regOf_eq_none_iff (c : Word) : regOf c = none ↔ Machine.NoRegister c := by
  by_cases hc : 0 ≤ c.toInt ∧ c.toInt ≤ 3
  · refine iff_of_false ?_ (not_not.mpr hc)
    obtain ⟨k, hk, rfl⟩ := eq_ofNat_of_between (m := 3) hc
    interval_cases k <;> decide
  · obtain ⟨n, hn⟩ := toNat_of_not_between (m := 3) hc (by decide)
    exact iff_of_true (by simp only [regOf, hn]) hc

/-- The opcodes whose instructions have two operand cells, the first a register operand (R51, R55). -/
abbrev TwoOperandOpcode (op : Word) : Prop := op.toInt = 9 ∨ op.toInt = 10 ∨ op.toInt = 11 ∨ op.toInt = 16

/-- How the cells after an opcode cell are read: as its format says, or not at all where it is no opcode. -/
inductive DecodesAs (op : Word) (rest : List Word) : Prop
  /-- format `F0` -/
  | bare (i : Instr) : op.toInt = 0 ∨ op.toInt = 1 → decode (op :: rest) = .instr i rest → DecodesAs op rest
  /-- formats `FR` and `FI` -/
  | one (mk : Word → Instr) : 2 ≤ op.toInt → op.toInt ≤ 18 → ¬ TwoOperandOpcode op →
      decode (op :: rest) = decodeOne mk rest → DecodesAs op rest
  /-- formats `FRI` and `FRR` -/
  | two (mk : Word → Word → Instr) : TwoOperandOpcode op → decode (op :: rest) = decodeTwo mk rest → DecodesAs op rest
  /-- no opcode (R57) -/
  | illegal : ¬ (0 ≤ op.toInt ∧ op.toInt ≤ 18) → decode (op :: rest) = .illegalOpcode op → DecodesAs op rest

/-- A cell outside the opcode map is no opcode (R57). -/
theorem decode_of_no_opcode {op : Word} (h : ¬ (0 ≤ op.toInt ∧ op.toInt ≤ 18)) (rest : List Word) :
    decode (op :: rest) = .illegalOpcode op := by
  obtain ⟨n, hn⟩ := toNat_of_not_between (m := 18) h (by decide)
  simp only [decode, hn]

/-- Every opcode cell is decoded in one of these ways (R55). -/
theorem decodesAs (op : Word) (rest : List Word) : DecodesAs op rest := by
  by_cases hop : 0 ≤ op.toInt ∧ op.toInt ≤ 18
  · obtain ⟨k, hk, rfl⟩ := eq_ofNat_of_between (m := 18) hop
    interval_cases k
    · exact .bare .nop (.inl rfl) rfl
    · exact .bare .halt (.inr rfl) rfl
    · exact .one .add (by decide) (by decide) (by decide) rfl
    · exact .one .sub (by decide) (by decide) (by decide) rfl
    · exact .one .mul (by decide) (by decide) (by decide) rfl
    · exact .one .div (by decide) (by decide) (by decide) rfl
    · exact .one .inc (by decide) (by decide) (by decide) rfl
    · exact .one .dec (by decide) (by decide) (by decide) rfl
    · exact .one .loop (by decide) (by decide) (by decide) rfl
    · exact .two .movr (.inl rfl) rfl
    · exact .two .load (.inr (.inl rfl)) rfl
    · exact .two .store (.inr (.inr (.inl rfl))) rfl
    · exact .one .in_ (by decide) (by decide) (by decide) rfl
    · exact .one .get (by decide) (by decide) (by decide) rfl
    · exact .one .out (by decide) (by decide) (by decide) rfl
    · exact .one .put (by decide) (by decide) (by decide) rfl
    · exact .two .swap (.inr (.inr (.inr rfl))) rfl
    · exact .one .push (by decide) (by decide) (by decide) rfl
    · exact .one .pop (by decide) (by decide) (by decide) rfl
  · exact .illegal hop (decode_of_no_opcode hop rest)

/-- Under an opcode with operands, no operand cell is a missing one (R35). -/
theorem decode_missing_first {op : Word} (h2 : 2 ≤ op.toInt) (h18 : op.toInt ≤ 18) : decode [op] = .missingOperand := by
  cases decodesAs op [] with
  | bare i h01 => omega
  | one mk _ _ _ hd => exact hd
  | two mk _ hd => exact hd
  | illegal h => omega

/-- Under a two-operand opcode a last cell is validated before the one after it is missed (R35, R73). -/
theorem decode_missing_second {op c : Word} (h : TwoOperandOpcode op) :
    decode [op, c] = if (regOf c).isSome then .missingOperand else .illegalRegister c := by
  cases decodesAs op [c] with
  | bare i h01 => omega
  | one mk _ _ hn => exact absurd h hn
  | two mk _ hd => exact hd
  | illegal hn => omega

/-- Three cells are enough for every instruction (R50). -/
theorem decode_three (op c d : Word) :
    (∃ i rest, decode [op, c, d] = .instr i rest) ∨ decode [op, c, d] = .illegalOpcode op := by
  cases decodesAs op [c, d] with
  | bare i _ hd => exact .inl ⟨_, _, hd⟩
  | one mk _ _ _ hd => exact .inl ⟨_, _, hd⟩
  | two mk _ hd => exact .inl ⟨_, _, hd⟩
  | illegal _ hd => exact .inr hd

end Sys2Proof

namespace Sys2Proof.Machine

/-- Settles O21: both ends of the window are `sp` plus an end of the offset range. -/
theorem windowIsAnOffsetRange : Obligations.WindowIsAnOffsetRange := by
  intro s n
  have hsp : s.sp = s.sb - (s.ssize : Int) := rfl
  simp only [State.inWindow, State.effAddr]
  omega

/-- Settles O44: every life keeps the layout. -/
theorem layoutIsFixedForLife : Obligations.LayoutIsFixedForLife := by
  intro c s h
  obtain ⟨hst, hsb, hparams⟩ := h.sameLayout
  simp only [hst, hsb, hparams, and_self]

/-! ### Operand cells beyond memory (R35) -/

/-- A runnable CORE whose cells end before an operand has no next state (R35). -/
theorem step_missingOperand {s : State} (hs : s.status = .ok) (hp : s.pcInRegion)
    (hd : decode s.fetchCells = .missingOperand) : step s = .refused .operandFetchOutsideMemory := by
  simp only [step, fetch, hs, hd, ne_eq, not_true_eq_false, if_false, if_pos hp]

/-- A runnable CORE whose cells end after an operand that is no register id stops there (R73). -/
theorem step_illegalRegister {s : State} {r : Word} (hs : s.status = .ok) (hp : s.pcInRegion)
    (hd : decode s.fetchCells = .illegalRegister r) : step s = .next ((s.advance 2).raise .illegalOperand) := by
  simp only [step, fetch, hs, hd, ne_eq, not_true_eq_false, if_false, if_pos hp]

/-- The last cell of memory is fetched alone. -/
theorem State.fetchCells_last {s : State} {p : Nat} (hpc : s.pc.toInt = (p : Int)) (hn : p + 1 = s.params.n) :
    s.fetchCells = [s.mem.read p] := by
  rw [State.fetchCells, hpc, Int.toNat_natCast, s.cellsFrom_succ _ _ (by omega), s.cellsFrom_out _ _ hn.ge]

/-- The last two cells of memory are fetched alone. -/
theorem State.fetchCells_last_two {s : State} {p : Nat} (hpc : s.pc.toInt = (p : Int)) (hn : p + 2 = s.params.n) :
    s.fetchCells = [s.mem.read p, s.mem.read (p + 1)] := by
  rw [State.fetchCells, hpc, Int.toNat_natCast, s.cellsFrom_succ _ _ (by omega), s.cellsFrom_succ _ _ (by omega),
    s.cellsFrom_out _ _ hn.ge]

/-- Settles O37: the cells fetched at the end of memory are the last one or two, and the decoder says what they lack. -/
theorem operandBeyondMemoryIsRefused : Obligations.OperandBeyondMemoryIsRefused := by
  intro s p _ hs hp hpc
  refine ⟨?_, ?_⟩
  · rintro _ rfl h2 h18 hn
    exact step_missingOperand hs hp (by rw [State.fetchCells_last hpc hn, decode_missing_first h2 h18])
  · rintro _ rfl hop hn
    have hd := decode_missing_second (c := s.mem.read (p + 1)) hop
    rw [← State.fetchCells_last_two hpc hn] at hd
    rw [← regOf_eq_none_iff]
    refine ⟨fun hr => ?_, fun hr => ?_⟩
    · exact step_illegalRegister hs hp (by simpa [hr] using hd)
    · exact step_missingOperand hs hp (by simpa [Option.isSome_iff_ne_none, hr] using hd)

/-! ### Steps that complete (R81) -/

/-- With two cells or more of stack, memory reaches two cells past every opcode of the fetch region. -/
theorem State.Inv.fetchCells_three {s : State} (hs : s.Inv) (hcap : 2 ≤ s.params.cap) (hp : s.pcInRegion) :
    ∃ op c d, s.fetchCells = [op, c, d] := by
  have htop := hs.top
  have hbottom := hs.bottom
  have hadm := hs.admissible.1
  simp only [State.fetchCells]
  rw [s.cellsFrom_succ _ _ (by omega), s.cellsFrom_succ _ _ (by omega), s.cellsFrom_succ _ _ (by omega), State.cellsFrom]
  exact ⟨_, _, _, rfl⟩

/-- An answer with a next state. -/
def Completes (o : Out) : Prop := ∃ t, o = .next t

theorem Completes.next (t : State) : Completes (.next t) := ⟨t, rfl⟩

/-- A register operand stops or goes on with its handler (R73). -/
theorem Completes.operand {c : Word} {stop : State} {k : Reg → Out} (h : ∀ r, Completes (k r)) :
    Completes (withReg c stop k) := by
  rcases withReg_cases c stop k with ⟨r, -, hr⟩ | ⟨-, hr⟩
  · exact hr ▸ h r
  · exact ⟨_, hr⟩

/-- The two branches of a check. -/
theorem Completes.ite {c : Prop} [Decidable c] {o₁ o₂ : Out} (h₁ : c → Completes o₁) (h₂ : ¬ c → Completes o₂) :
    Completes (if c then o₁ else o₂) := by
  split
  · exact h₁ ‹_›
  · exact h₂ ‹_›

/-- A source that answers gives an answer of the decimal port (R81, R150). -/
theorem Env.askDec_of_answers {e : Env} (h : e.decAnswers) : ∃ a f, e.askDec = some (a, f) := by
  rcases e.askDec_cases with ⟨_, _, -, hr⟩ | ⟨-, -, hr⟩ | ⟨hin, hheld, -⟩
  · exact ⟨_, _, hr⟩
  · exact ⟨_, _, hr⟩
  · simp [Env.decAnswers, hin, hheld] at h

/-- A source that answers gives an answer of the byte port (R81, R150). -/
theorem Env.askByte_of_answers {e : Env} (h : e.byteAnswers) : ∃ a f, e.askByte = some (a, f) := by
  rcases e.askByte_cases with ⟨_, _, -, hr⟩ | ⟨-, -, hr⟩ | ⟨hin, hheld, -⟩
  · exact ⟨_, _, hr⟩
  · exact ⟨_, _, hr⟩
  · simp [Env.byteAnswers, hin, hheld] at h

/-- Under the invariant every instruction completes where the environment answers: the stack checks keep its cells inside
memory (R36, R37). -/
theorem exec_completes (i : Instr) {s : State} (hs : s.Inv) (hdec : s.env.decAnswers) (hbyte : s.env.byteAnswers) :
    Completes (exec i s) := by
  cases i with
  | nop => exact .next _
  | halt => exact .next _
  | add c => exact .operand fun r => .next _
  | sub c => exact .operand fun r => .next _
  | mul c => exact .operand fun r => .next _
  | div c => exact .operand fun r => .ite (fun _ => .next _) (fun _ => .next _)
  | inc c => exact .operand fun r => .next _
  | dec c => exact .operand fun r => .next _
  | loop n => exact .next _
  | movr c n => exact .operand fun r => .next _
  | load c n =>
    refine .operand fun r => .ite (fun hw => ?_) (fun _ => .next _)
    rw [State.memRead_of_hasCell (hs.hasCell_window hw)]
    exact .next _
  | store c n =>
    refine .operand fun r => .ite (fun hw => ?_) (fun _ => .next _)
    have hcell : (s.advance 3).hasCell (s.effAddr n) := hs.hasCell_window hw
    rw [State.memWrite_of_hasCell hcell]
    exact .next _
  | in_ c =>
    obtain ⟨a, e, ha⟩ := Env.askDec_of_answers hdec
    refine .operand fun r => ?_
    rw [ha]
    exact .next _
  | get c =>
    obtain ⟨a, e, ha⟩ := Env.askByte_of_answers hbyte
    refine .operand fun r => ?_
    rw [ha]
    exact .next _
  | out c => exact .operand fun r => .next _
  | put c => exact .operand fun r => .ite (fun _ => .next _) (fun _ => .next _)
  | swap c d => exact .operand fun p => .operand fun q => .next _
  | push c =>
    refine .operand fun r => .ite (fun _ => .next _) (fun hf => ?_)
    have hcell : (s.advance 2).hasCell s.sp := hs.hasCell_sp hf
    rw [State.memWrite_of_hasCell hcell]
    exact .next _
  | pop c =>
    refine .operand fun r => .ite (fun _ => .next _) (fun h0 => ?_)
    have hcell : (s.advance 2).hasCell (s.sp + 1) := hs.hasCell_top h0
    rw [State.memRead_of_hasCell (hs.hasCell_top h0), State.memWrite_of_hasCell hcell]
    exact .next _

/-- Settles O38: three cells are always fetched, so the decoder finds an instruction or no opcode, and instructions
complete. -/
theorem stepAlwaysCompletes : Obligations.StepAlwaysCompletes := by
  intro s hs hcap hdec hbyte
  have hthree : s.pcInRegion → (∃ i rest, decode s.fetchCells = .instr i rest) ∨
      ∃ op, decode s.fetchCells = .illegalOpcode op := fun hp => by
    obtain ⟨op, c, d, hcells⟩ := hs.fetchCells_three hcap hp
    exact hcells ▸ (decode_three op c d).imp_right fun hd => ⟨op, hd⟩
  rcases step_cases s with
    ⟨-, hr⟩ | ⟨-, -, hr⟩ | ⟨-, hp, ⟨i, rest, -, hr⟩ | ⟨hd, -⟩ | ⟨op, -, hr⟩ | ⟨r, -, hr⟩ | ⟨hd, -⟩⟩
  · exact ⟨_, hr⟩
  · exact ⟨_, hr⟩
  · exact hr ▸ exec_completes i hs hdec hbyte
  · rcases hthree hp with ⟨i, rest, hi⟩ | ⟨op, hop⟩
    · cases hd.symm.trans hi
    · cases hd.symm.trans hop
  · exact ⟨_, hr⟩
  · exact ⟨_, hr⟩
  · rcases hthree hp with ⟨i, rest, hi⟩ | ⟨op, hop⟩
    · cases hd.symm.trans hi
    · cases hd.symm.trans hop

end Sys2Proof.Machine
end

section
/-! SUPPORT. The encoding (30_encoding.md): the decoder and the encoder undo each other (R50 to R52, R55, R56), the opcode
cells that are rejected (R57), and the register operand cells (R53). -/

namespace Sys2Proof

/-! ### From the encoding to the instruction (R50, R51, R55) -/

/-- Each opcode selects its own instruction, whose format takes the operand cells back (R51, R55). -/
theorem decode_encode_append (i : Instr) (rest : List Word) : decode (encode i ++ rest) = .instr i rest := by
  cases i <;> rfl

/-- An instruction with nothing after it is read back (R55). -/
theorem decode_encode (i : Instr) : decode (encode i) = .instr i [] := by
  simpa using decode_encode_append i []

/-- Settles O49: one fact about the cells, since the bytes load as the cells they come from. -/
theorem decodeInvertsEncode : Obligations.DecodeInvertsEncode := by
  intro i rest order
  refine ⟨decode_encode_append i rest, ?_⟩
  rw [cellsOfBytes_bytesOfCells, Option.map_some, decode_encode_append]

/-! ### From the instruction to the encoding (R52, R56) -/

/-- A one-operand format answers an instruction only on its operand cell and what follows it (R51). -/
theorem eq_encode_of_decodeOne {op : Word} {mk : Word → Instr} {cells rest : List Word} {i : Instr}
    (hmk : ∀ c, encode (mk c) = [op, c]) (h : decodeOne mk cells = .instr i rest) : op :: cells = encode i ++ rest := by
  match cells with
  | [] => cases h
  | c :: _ =>
    cases h
    rw [hmk]
    rfl

/-- A two-operand format answers an instruction only on its operand cells and what follows them (R51). -/
theorem eq_encode_of_decodeTwo {op : Word} {mk : Word → Word → Instr} {cells rest : List Word} {i : Instr}
    (hmk : ∀ c d, encode (mk c d) = [op, c, d]) (h : decodeTwo mk cells = .instr i rest) :
    op :: cells = encode i ++ rest := by
  match cells with
  | [] => cases h
  | [c] =>
    rw [decodeTwo] at h
    split at h <;> cases h
  | c :: d :: _ =>
    cases h
    rw [hmk]
    rfl

/-- Under each opcode of the map only the encoding of its own instruction decodes to an instruction (R52, R56). -/
theorem eq_encode_of_decode_opcode {op : Word} {cells rest : List Word} {i : Instr}
    (hop : 0 ≤ op.toInt ∧ op.toInt ≤ 18) (h : decode (op :: cells) = .instr i rest) : op :: cells = encode i ++ rest := by
  obtain ⟨k, hk, rfl⟩ := eq_ofNat_of_between (m := 18) hop
  interval_cases k
  · cases h; rfl
  · cases h; rfl
  · exact eq_encode_of_decodeOne (mk := .add) (fun _ => rfl) h
  · exact eq_encode_of_decodeOne (mk := .sub) (fun _ => rfl) h
  · exact eq_encode_of_decodeOne (mk := .mul) (fun _ => rfl) h
  · exact eq_encode_of_decodeOne (mk := .div) (fun _ => rfl) h
  · exact eq_encode_of_decodeOne (mk := .inc) (fun _ => rfl) h
  · exact eq_encode_of_decodeOne (mk := .dec) (fun _ => rfl) h
  · exact eq_encode_of_decodeOne (mk := .loop) (fun _ => rfl) h
  · exact eq_encode_of_decodeTwo (mk := .movr) (fun _ _ => rfl) h
  · exact eq_encode_of_decodeTwo (mk := .load) (fun _ _ => rfl) h
  · exact eq_encode_of_decodeTwo (mk := .store) (fun _ _ => rfl) h
  · exact eq_encode_of_decodeOne (mk := .in_) (fun _ => rfl) h
  · exact eq_encode_of_decodeOne (mk := .get) (fun _ => rfl) h
  · exact eq_encode_of_decodeOne (mk := .out) (fun _ => rfl) h
  · exact eq_encode_of_decodeOne (mk := .put) (fun _ => rfl) h
  · exact eq_encode_of_decodeTwo (mk := .swap) (fun _ _ => rfl) h
  · exact eq_encode_of_decodeOne (mk := .push) (fun _ => rfl) h
  · exact eq_encode_of_decodeOne (mk := .pop) (fun _ => rfl) h

/-- Settles O50: an opcode cell inside the map has only its own instruction's encodings, and one outside it has none. -/
theorem onlyTheEncodingDecodes : Obligations.OnlyTheEncodingDecodes := by
  intro cs rest i h
  match cs with
  | [] => cases h
  | op :: cells =>
    by_cases hop : 0 ≤ op.toInt ∧ op.toInt ≤ 18
    · exact eq_encode_of_decode_opcode hop h
    · cases (decode_of_no_opcode hop cells).symm.trans h

/-! ### Opcode cells outside the map (R57) -/

/-- A one-operand format rejects no opcode. -/
theorem decodeOne_ne_illegalOpcode (mk : Word → Instr) (cells : List Word) (op : Word) :
    decodeOne mk cells ≠ .illegalOpcode op := by
  cases cells <;> nofun

/-- A two-operand format rejects no opcode. -/
theorem decodeTwo_ne_illegalOpcode (mk : Word → Word → Instr) (cells : List Word) (op : Word) :
    decodeTwo mk cells ≠ .illegalOpcode op := by
  match cells with
  | [] => nofun
  | [c] =>
    rw [decodeTwo]
    split <;> nofun
  | c :: d :: _ => nofun

/-- Settles O51: a cell of the map is read by one of the formats, and none of them rejects an opcode. -/
theorem opcodesOutsideTheMapAreIllegal : Obligations.OpcodesOutsideTheMapAreIllegal := by
  refine fun op rest => ⟨fun h => ?_, fun hop => decode_of_no_opcode hop rest⟩
  cases decodesAs op rest with
  | bare i _ hd => cases hd.symm.trans h
  | one mk _ _ _ hd => exact absurd (hd.symm.trans h) (decodeOne_ne_illegalOpcode mk rest op)
  | two mk _ hd => exact absurd (hd.symm.trans h) (decodeTwo_ne_illegalOpcode mk rest op)
  | illegal hop _ => exact hop

/-! ### Register operand cells (R53, R11) -/

/-- A register operand names a register exactly when its whole signed value is the register's id. -/
theorem regOf_eq_some_iff_toInt (c : Word) (r : Reg) : regOf c = some r ↔ c.toInt = r.cell.toInt := by
  rw [BitVec.toInt_inj]
  refine ⟨Machine.regOf_eq_some, ?_⟩
  rintro rfl
  exact Machine.regOf_cell r

/-- Settles O1: the ids of the four registers are 0 to 3, and no other cell names one. -/
theorem registerOperandIsAWholeCell : Obligations.RegisterOperandIsAWholeCell := fun c =>
  ⟨regOf_eq_some_iff_toInt c .A, regOf_eq_some_iff_toInt c .B, regOf_eq_some_iff_toInt c .C,
    regOf_eq_some_iff_toInt c .D, regOf_eq_none_iff c⟩

/-! ### Words written out (95_test_vectors.md) -/

/-- Settles O52: the words are encodings, or begin with a cell outside the opcode map. -/
theorem sampleWordsDecode : Obligations.SampleWordsDecode :=
  ⟨decode_encode .nop, decode_encode (.loop 7), decode_encode (.add 1), decode_encode (.movr 0 5),
    decode_encode (.swap 0 3), decode_encode (.store 0 (-1)), decode_encode (.in_ 0),
    decode_of_no_opcode (by decide) [], decode_of_no_opcode (by decide) [], decode_of_no_opcode (by decide) []⟩

end Sys2Proof
end

section
/-! SUPPORT. The execution engine (40_execution_engine.md): a step runs the instruction its cells hold or encode (R71 to R74),
progress and the stopped CORE (R75, R77), the memory frame (R76), `run` in terms of its steps (R78, R79), and the hold of an
input instruction (R81). -/

namespace Sys2Proof.Machine

/-! ### A step runs the instruction at the program counter (R71 to R74) -/

/-- A runnable CORE runs the instruction its cells decode to (R74). -/
theorem step_run {s : State} {i : Instr} {rest : List Word} (hs : s.status = .ok) (hp : s.pcInRegion)
    (hd : decode s.fetchCells = .instr i rest) : step s = exec i s := by
  rw [step, fetch_run hs hp hd]

/-- Settles O28: the front of the step hands the decoded instruction on. -/
theorem stepRunsTheDecodedInstruction : Obligations.StepRunsTheDecodedInstruction := fun _ _ _ => step_run

/-- Memory holds the cells `cs` from index `a` on. -/
def State.HoldsCells (s : State) (a : Nat) (cs : List Word) : Prop :=
  ∀ (j : Nat) (w : Word), cs[j]? = some w → a + j < s.params.n ∧ s.mem.read (a + j) = w

/-- Cells that memory holds are the first of those fetched there. -/
theorem State.HoldsCells.cellsFrom {s : State} {cs : List Word} {a k : Nat} (h : s.HoldsCells a cs) (hk : cs.length ≤ k) :
    ∃ rest, s.cellsFrom a k = cs ++ rest := by
  induction cs generalizing a k with
  | nil => exact ⟨_, rfl⟩
  | cons c cs ih =>
    obtain ⟨k, rfl⟩ := Nat.exists_eq_add_one_of_ne_zero (Nat.ne_zero_of_lt hk)
    obtain ⟨hn, rfl⟩ := h 0 c rfl
    have htail : s.HoldsCells (a + 1) cs := fun j w hw => by
      rw [Nat.add_assoc, Nat.add_comm 1 j]
      exact h (j + 1) w hw
    obtain ⟨rest, hrest⟩ := ih htail (Nat.le_of_succ_le_succ hk)
    exact ⟨rest, by rw [s.cellsFrom_succ a k hn, hrest]; rfl⟩

/-- The longest instruction has three cells (R50). -/
theorem length_encode_le (i : Instr) : (encode i).length ≤ 3 := by
  cases i <;> simp [encode, Instr.operands]

/-- Settles O29: the fetched cells begin with the encoding, which the decoder takes back whatever follows it. -/
theorem stepRunsTheEncodedInstruction : Obligations.StepRunsTheEncodedInstruction := by
  intro s i hs hp hcells
  obtain ⟨rest, hrest⟩ := State.HoldsCells.cellsFrom hcells (length_encode_le i)
  exact step_run hs hp (by rw [State.fetchCells, hrest, decode_encode_append])

/-! ### Progress and the stopped CORE (R75, R77) -/

/-- A stopped CORE answers its own state (R77). -/
theorem step_stopped {s : State} (hs : s.status ≠ .ok) : step s = .next s := by
  rw [step, fetch_stopped hs]

/-- A step that completes reports whether it left the CORE runnable (R75). -/
theorem progressed_iff {s t : State} (h : step s = .next t) : progressed s = true ↔ t.status = .ok := by
  rw [progressed, h]
  exact decide_eq_true_iff

/-- A run of a stopped CORE makes no step (R77, R79). -/
theorem run_stopped {s : State} (hs : s.status ≠ .ok) (m : Word) : run m s = .next (0, s) := if_pos hs

/-- Settles O39: no step leaves a stop, so a CORE that ends runnable started so. -/
theorem progressIsStayingRunnable : Obligations.ProgressIsStayingRunnable := by
  intro s t h
  rw [progressed_iff h]
  refine ⟨fun ht => ⟨?_, ht⟩, And.right⟩
  by_contra hs
  cases (step_stopped hs).symm.trans h
  exact hs ht

/-- Settles O30: the stopped check stands before everything else in a step and in a run. -/
theorem stoppedCoreIsInert : Obligations.StoppedCoreIsInert := fun _ hs =>
  ⟨step_stopped hs, Bool.eq_false_iff.mpr (mt (progressed_iff (step_stopped hs)).mp hs), run_stopped hs⟩

/-! ### The memory frame (R76) -/

/-- An instruction keeps the memory, or writes the one cell its store address names. -/
theorem Effect.mem {i : Instr} {s t : State} (h : Effect i s t) :
    t.mem = s.mem ∨ ∃ ea v, storeAddress i s = some ea ∧ 0 ≤ ea ∧ t.mem = s.mem.write ea.toNat v := by
  cases h with
  | stored r n hi _ hc => exact .inr ⟨_, _, by rw [hi, storeAddress], hc.1, rfl⟩
  | pushed r hi _ hc => exact .inr ⟨_, _, by rw [hi, storeAddress], hc.1, rfl⟩
  | popped r hi _ hc => exact .inr ⟨_, _, by rw [hi, storeAddress], hc.1, rfl⟩
  | tookDec r a e => exact .inl (KeepsStack.takeDec s e r a).mem
  | tookByte r a e => exact .inl (KeepsStack.takeByte s e r a).mem
  | _ => exact .inl rfl

/-- Settles O41: an effect on the memory is a write at the store address. -/
theorem instructionsStoreOnlyAtTheirAddress : Obligations.InstructionsStoreOnlyAtTheirAddress := by
  intro i s t h
  rcases (exec_effect h).mem with hmem | ⟨ea, v, hea, hpos, hmem⟩
  · simp [hmem]
  · rw [hea, hmem]
    refine ⟨nofun, ?_⟩
    rintro _ ⟨⟩ a ha
    exact Memory.read_write_ne _ _ _ _ (by omega)

/-! ### The loop of `run` (R78) -/

/-- What `k` steps of a run with `budget` steps do from `s` to `t`: every one of them starts runnable, and only a stop leaves
budget unspent (R78). -/
structure RunsFor (budget k : Nat) (s t : State) : Prop where
  within : k ≤ budget
  steps : Machine.steps k s = .next t
  runnable : ∀ j, j < k → ∃ u, Machine.steps j s = .next u ∧ u.status = .ok
  spent : t.status = .ok → k = budget

/-- Steps after a first one that has a next state. -/
theorem steps_succ {s t : State} (h : step s = .next t) (k : Nat) : steps (k + 1) s = steps k t := by
  rw [steps, h]

/-- No step is made where no budget is left. -/
theorem RunsFor.zero (s : State) : RunsFor 0 0 s s := ⟨le_rfl, rfl, nofun, fun _ => rfl⟩

/-- A stopped CORE makes no step. -/
theorem RunsFor.stopped {s : State} (hs : s.status ≠ .ok) (b : Nat) : RunsFor b 0 s s :=
  ⟨Nat.zero_le b, rfl, nofun, fun h => absurd h hs⟩

/-- A runnable CORE makes one step more. -/
theorem RunsFor.succ {b k : Nat} {s t u : State} (hs : s.status = .ok) (hstep : step s = .next t) (h : RunsFor b k t u) :
    RunsFor (b + 1) (k + 1) s u where
  within := Nat.succ_le_succ h.within
  steps := (steps_succ hstep k).trans h.steps
  runnable j hj := by
    cases j with
    | zero => exact ⟨_, rfl, hs⟩
    | succ j =>
      rw [steps_succ hstep]
      exact h.runnable j (Nat.lt_of_succ_lt_succ hj)
  spent hu := congrArg Nat.succ (h.spent hu)

/-- The loop ends at once in a stopped CORE. -/
theorem runLoop_stopped {s : State} (hs : s.status ≠ .ok) (b c : Nat) : runLoop (b + 1) c s = .next (c, s) := if_neg hs

/-- The loop goes on after a step of a runnable CORE that has a next state. -/
theorem runLoop_succ {s t : State} (hs : s.status = .ok) (h : step s = .next t) (b c : Nat) :
    runLoop (b + 1) c s = runLoop b (c + 1) t := by
  rw [runLoop, if_pos hs, h]

/-- A loop that returns from a runnable CORE has made a first step. -/
theorem step_of_runLoop {s : State} {b c : Nat} {p : Nat × State} (hs : s.status = .ok) (h : runLoop (b + 1) c s = .next p) :
    ∃ t, step s = .next t := by
  rw [runLoop, if_pos hs] at h
  split at h
  · next t ht => exact ⟨t, ht⟩
  · cases h
  · cases h

/-- What a loop that returns has done, and how it counted. -/
theorem runLoop_runsFor {b c n : Nat} {s t : State} (h : runLoop b c s = .next (n, t)) :
    ∃ k, n = c + k ∧ RunsFor b k s t := by
  induction b generalizing c s with
  | zero =>
    cases h
    exact ⟨0, rfl, .zero _⟩
  | succ b ih =>
    by_cases hs : s.status = .ok
    · obtain ⟨u, hu⟩ := step_of_runLoop hs h
      obtain ⟨k, rfl, hk⟩ := ih ((runLoop_succ hs hu b c).symm.trans h)
      exact ⟨k + 1, by omega, hk.succ hs hu⟩
    · cases (runLoop_stopped hs b c).symm.trans h
      exact ⟨0, rfl, .stopped hs _⟩

/-- A loop whose steps complete returns (R78). -/
theorem runLoop_returns {b : Nat} (c : Nat) {s : State}
    (h : ∀ (k : Nat) (u : State), k < b → steps k s = .next u → ∃ t, step u = .next t) :
    ∃ p, runLoop b c s = .next p := by
  induction b generalizing c s with
  | zero => exact ⟨_, rfl⟩
  | succ b ih =>
    by_cases hs : s.status = .ok
    · obtain ⟨t, ht⟩ := h 0 s b.succ_pos rfl
      rw [runLoop_succ hs ht]
      exact ih _ fun k u hk hu => h (k + 1) u (Nat.succ_lt_succ hk) ((steps_succ ht k).trans hu)
    · exact ⟨_, runLoop_stopped hs b c⟩

/-- The steps made before are added to the count and have no other effect. -/
theorem runLoop_add_count {b c n : Nat} {s t : State} (a : Nat) (h : runLoop b c s = .next (n, t)) :
    runLoop b (a + c) s = .next (a + n, t) := by
  induction b generalizing c s with
  | zero =>
    cases h
    rfl
  | succ b ih =>
    by_cases hs : s.status = .ok
    · obtain ⟨u, hu⟩ := step_of_runLoop hs h
      rw [runLoop_succ hs hu] at h ⊢
      exact ih h
    · cases (runLoop_stopped hs b c).symm.trans h
      exact runLoop_stopped hs b _

/-- A loop that ends runnable goes on with a larger budget from where it ended (R79). -/
theorem runLoop_add_budget {b c n : Nat} {s t : State} (d : Nat) (h : runLoop b c s = .next (n, t)) (ht : t.status = .ok) :
    runLoop (b + d) c s = runLoop d n t := by
  induction b generalizing c s with
  | zero =>
    cases h
    rw [Nat.zero_add]
  | succ b ih =>
    by_cases hs : s.status = .ok
    · obtain ⟨u, hu⟩ := step_of_runLoop hs h
      rw [Nat.succ_add, runLoop_succ hs hu]
      exact ih ((runLoop_succ hs hu b c).symm.trans h)
    · cases (runLoop_stopped hs b c).symm.trans h
      exact absurd ht hs

/-! ### What `run` returns (R78, R79) -/

/-- The count `run` returns for `n` steps that end in `t` (R78). -/
def State.signedCount (t : State) (n : Nat) : Int := if t.status.isError then -(n : Int) else n

/-- No step is counted as 0, however the run ended. -/
theorem State.signedCount_zero (t : State) : t.signedCount 0 = 0 := by simp [State.signedCount]

/-- An error is a stop other than `halt`'s (R15). -/
theorem Status.isError_iff (e : Status) : e.isError = true ↔ e ≠ .ok ∧ e ≠ .halted := by
  cases e <;> decide

/-- A run that ends runnable or halted returns its count (R78). -/
theorem State.signedCount_of_clean {t : State} (h : t.status = .ok ∨ t.status = .halted) (n : Nat) :
    t.signedCount n = n :=
  if_neg fun he => by
    obtain ⟨hok, hhalt⟩ := t.status.isError_iff.mp he
    exact h.elim hok hhalt

/-- A run that ends in an error returns its count negated (R78). -/
theorem State.signedCount_of_error {t : State} (hok : t.status ≠ .ok) (hhalt : t.status ≠ .halted) (n : Nat) :
    t.signedCount n = -(n : Int) :=
  if_pos (t.status.isError_iff.mpr ⟨hok, hhalt⟩)

/-- A runnable CORE's run is the loop's, with the sign of its end. -/
theorem run_next_iff {m : Word} {s t : State} {c : Int} (hs : s.status = .ok) :
    run m s = .next (c, t) ↔ ∃ n, runLoop m.toInt.toNat 0 s = .next (n, t) ∧ c = t.signedCount n := by
  rw [run, if_neg (not_not_intro hs)]
  cases hloop : runLoop m.toInt.toNat 0 s with
  | next p =>
    obtain ⟨n, u⟩ := p
    constructor
    · intro h
      cases h
      exact ⟨n, rfl, rfl⟩
    · rintro ⟨_, ⟨⟩, rfl⟩
      rfl
  | fault f => exact ⟨nofun, nofun⟩
  | refused r => exact ⟨nofun, nofun⟩

/-- Settles O57: the loop's steps and count, with the sign of the run's end. -/
theorem runCountsAttemptedSteps : Obligations.RunCountsAttemptedSteps := by
  refine ⟨fun m s hs => run_stopped hs m, fun m s t c hs h => ?_, fun m s h => ?_⟩
  · obtain ⟨n, hloop, rfl⟩ := (run_next_iff hs).mp h
    obtain ⟨k, rfl, hk⟩ := runLoop_runsFor hloop
    rw [Nat.zero_add]
    exact ⟨k, hk.within, hk.steps, hk.runnable, hk.spent, fun hclean => State.signedCount_of_clean hclean k,
      fun hok hhalt => State.signedCount_of_error hok hhalt k⟩
  · by_cases hs : s.status = .ok
    · obtain ⟨⟨n, t⟩, hloop⟩ := runLoop_returns 0 h
      exact ⟨_, t, (run_next_iff hs).mpr ⟨n, hloop, rfl⟩⟩
    · exact ⟨0, s, run_stopped hs m⟩

/-- A run with no budget changes nothing (R79). -/
theorem run_of_nonpos {m : Word} (hm : m.toInt ≤ 0) (s : State) : run m s = .next (0, s) := by
  by_cases hs : s.status = .ok
  · refine (run_next_iff hs).mpr ⟨0, ?_, s.signedCount_zero.symm⟩
    rw [Int.toNat_of_nonpos hm, runLoop]
  · exact run_stopped hs m

/-- A run that ends runnable started so (R77). -/
theorem run_started_ok {m : Word} {s t : State} {c : Int} (h : run m s = .next (c, t)) (ht : t.status = .ok) :
    s.status = .ok := by
  by_contra hs
  cases (run_stopped hs m).symm.trans h
  exact hs ht

/-- A run that ends runnable has spent its budget (R79). -/
theorem runLoop_of_run_ok {m : Word} {s t : State} {c : Int} (h : run m s = .next (c, t)) (ht : t.status = .ok) :
    runLoop m.toInt.toNat 0 s = .next (m.toInt.toNat, t) ∧ c = (m.toInt.toNat : Int) := by
  obtain ⟨n, hloop, rfl⟩ := (run_next_iff (run_started_ok h ht)).mp h
  obtain ⟨k, rfl, hk⟩ := runLoop_runsFor hloop
  rw [Nat.zero_add] at hloop ⊢
  obtain rfl := hk.spent ht
  exact ⟨hloop, State.signedCount_of_clean (.inl ht) _⟩

/-- Settles O58: the second loop goes on where the first ended, counting from the first one's budget. -/
theorem runResumesWhereItStopped : Obligations.RunResumesWhereItStopped := by
  refine ⟨fun m s hm => run_of_nonpos hm s, fun m k both s t u c d hm hk hboth h ht h' => ?_⟩
  obtain ⟨hloop, rfl⟩ := runLoop_of_run_ok h ht
  obtain ⟨n, hloop', rfl⟩ := (run_next_iff ht).mp h'
  have hsum : both.toInt.toNat = m.toInt.toNat + k.toInt.toNat := by omega
  refine ⟨Int.toNat_of_nonneg hm, (run_next_iff (run_started_ok h ht)).mpr ⟨m.toInt.toNat + n, ?_, ?_⟩⟩
  · rw [hsum, runLoop_add_budget _ hloop ht]
    exact runLoop_add_count _ hloop'
  · rw [State.signedCount, State.signedCount]
    split <;> omega

/-! ### The hold of an input instruction (R81, U14) -/

/-- `in` with an answer of the decimal port (R151). -/
theorem exec_in_answered {s : State} {a : DecAnswer} {e : Env} (h : s.env.askDec = some (a, e)) (r : Reg) :
    exec (.in_ r.cell) s = .next (((s.advance 2).setEnv e).takeDec r a) := by
  rw [exec, execIn, withReg_some (regOf_cell r), h]

/-- `in` with no answer of the decimal port. -/
theorem exec_in_unanswered {s : State} (h : s.env.askDec = none) (r : Reg) :
    exec (.in_ r.cell) s = .fault .inputHold := by
  rw [exec, execIn, withReg_some (regOf_cell r), h]

/-- `get` with an answer of the byte port (R152). -/
theorem exec_get_answered {s : State} {a : ByteAnswer} {e : Env} (h : s.env.askByte = some (a, e)) (r : Reg) :
    exec (.get r.cell) s = .next (((s.advance 2).setEnv e).takeByte r a) := by
  rw [exec, execGet, withReg_some (regOf_cell r), h]

/-- `get` with no answer of the byte port. -/
theorem exec_get_unanswered {s : State} (h : s.env.askByte = none) (r : Reg) :
    exec (.get r.cell) s = .fault .inputHold := by
  rw [exec, execGet, withReg_some (regOf_cell r), h]

/-- A decimal port that withholds its answer gives none. -/
theorem Env.askDec_held {e : Env} (hl : e.decIn = []) (hh : e.decHeld = true) : e.askDec = none := by
  simp [Env.askDec, hl, hh]

/-- A byte port that withholds its answer gives none. -/
theorem Env.askByte_held {e : Env} (hl : e.byteIn = []) (hh : e.byteHeld = true) : e.askByte = none := by
  simp [Env.askByte, hl, hh]

/-- A decimal answer offered to a port that had none is the one taken, and the port has none again. -/
theorem State.askDec_offerDec {s : State} (hl : s.env.decIn = []) (a : DecAnswer) :
    (s.offerDec a).env.askDec = some (a, { s.env with decAsked := s.env.decAsked + 1 }) := by
  simp [State.offerDec, Env.askDec, hl]

/-- A byte answer offered to a port that had none is the one taken, and the port has none again. -/
theorem State.askByte_offerByte {s : State} (hl : s.env.byteIn = []) (a : ByteAnswer) :
    (s.offerByte a).env.askByte = some (a, { s.env with byteAsked := s.env.byteAsked + 1 }) := by
  simp [State.offerByte, Env.askByte, hl]

/-- Settles O26: a withholding port gives no answer, and an offered one is taken. -/
theorem withheldInputHolds : Obligations.WithheldInputHolds :=
  ⟨fun _ r hl hh => ⟨exec_in_unanswered (Env.askDec_held hl hh) r, fun v =>
      exec_in_answered (State.askDec_offerDec hl (.int v)) r⟩,
    fun _ r hl hh => ⟨exec_get_unanswered (Env.askByte_held hl hh) r, fun b => by
      rw [BitVec.ofNat_toNat]
      exact exec_get_answered (State.askByte_offerByte hl (.byte b)) r⟩⟩

end Sys2Proof.Machine
end

section
/-! SUPPORT. Control (41_control.md): `nop` and the zero cells it fills the fetch region with (R90, R32), `halt` (R91), and
`loop` with a target outside the fetch region (R92). -/

namespace Sys2Proof.Machine

/-! ### A program counter outside the fetch region (R34) -/

/-- A runnable CORE whose program counter is outside the fetch region stops there (R34). -/
theorem step_outside {s : State} (hs : s.status = .ok) (hp : ¬ s.pcInRegion) :
    step s = .next (s.raise .invalidAddress) := by
  rw [step, fetch_outside hs hp]

/-- A run that makes a first step and stops at an error there returns -1 (R78, D33). -/
theorem run_error_at_once {m : Word} {s t : State} (hm : 0 < m.toInt) (hs : s.status = .ok) (h : step s = .next t)
    (hok : t.status ≠ .ok) (hhalt : t.status ≠ .halted) : run m s = .next (-1, t) := by
  have hloop (b : Nat) : runLoop (b + 1) 0 s = .next (1, t) := by
    rw [runLoop_succ hs h]
    cases b with
    | zero => rfl
    | succ b => exact runLoop_stopped hok b 1
  obtain ⟨b, hb⟩ := Nat.exists_eq_add_one_of_ne_zero (n := m.toInt.toNat) (by omega)
  exact (run_next_iff hs).mpr ⟨1, hb ▸ hloop b, (State.signedCount_of_error hok hhalt 1).symm⟩

/-! ### `nop` (R90) -/

/-- `nop` moves the program counter past its one cell (R90). -/
theorem exec_nop (s : State) : exec .nop s = .next (s.advance 1) := rfl

/-- Under the invariant the fetch region lies in memory (R31, R46). -/
theorem State.Inv.st_le_n {s : State} (hs : s.Inv) : s.st ≤ s.params.n := by
  have hbottom := hs.bottom
  have htop := hs.top
  omega

/-- A zero cell of the fetch region is executed as `nop` (R32, R90). -/
theorem State.Inv.step_zero_cell {s : State} (hs : s.Inv) (hok : s.status = .ok) (hp : s.pcInRegion)
    (hcell : s.mem.read s.pc.toInt.toNat = 0) : step s = .next (s.advance 1) := by
  have hn := hs.st_le_n
  have hcells : s.fetchCells = 0 :: s.cellsFrom (s.pc.toInt.toNat + 1) 2 := by
    rw [State.fetchCells, s.cellsFrom_succ _ _ (by omega), hcell]
  exact step_run hok hp (by rw [hcells]; exact decode_encode_append .nop _)

/-- The program counter past the last cell of the fetch region is no cell of it: the region ends too low for the addition
to wrap (R34, D8). -/
theorem State.Inv.not_pcInRegion_past_last {s : State} (hs : s.Inv) (hp : s.pcInRegion) (hlast : s.pc.toInt = s.st - 1) :
    ¬ (s.advance 1).pcInRegion := by
  have hn := hs.st_le_n
  have hmax : s.params.n ≤ 2147483645 := hs.admissible.2
  have hpc : (s.pc + 1).toInt = s.pc.toInt + 1 := by
    rw [BitVec.toInt_add, show (1 : Word).toInt = 1 from rfl]
    exact Int.bmod_eq_of_le (by omega) (by omega)
  rw [State.pcInRegion, State.advance_pc, State.advance_st]
  omega

/-- Settles O3: a zero cell is `nop`'s encoding, and past index `ST - 1` the program-counter check fails. -/
theorem nopOnlyAdvances : Obligations.NopOnlyAdvances := by
  refine ⟨rfl, exec_nop, fun s hs hok hp hcell => ?_⟩
  have hstep := hs.step_zero_cell hok hp hcell
  refine ⟨hstep, (progressed_iff hstep).mpr hok, fun hlast => ?_⟩
  exact ⟨_, step_outside (s := s.advance 1) hok (hs.not_pcInRegion_past_last hp hlast), rfl⟩

/-! ### `halt` (R91) -/

/-- Settles O4: `halt` leaves a stopped CORE, which no step or run changes. -/
theorem haltStopsCleanly : Obligations.HaltStopsCleanly := by
  refine ⟨rfl, fun s => ⟨(s.advance 1).raise .halted, rfl, rfl, ?_⟩⟩
  exact stoppedCoreIsInert _ nofun

/-! ### `loop` (R92) -/

/-- `loop` with C not zero moves the program counter to its target, unchecked (R92). -/
theorem exec_loop_taken {s : State} (hc : s.reg .C ≠ 0) (n : Word) : exec (.loop n) s = .next (s.jump n) :=
  congrArg Host.Outcome.next (if_pos hc)

/-- `loop` with C zero moves past its two cells (R92). -/
theorem exec_loop_through {s : State} (hc : s.reg .C = 0) (n : Word) : exec (.loop n) s = .next (s.advance 2) :=
  congrArg Host.Outcome.next (if_neg (not_not_intro hc))

/-- `loop` always completes and never changes the status (R76, R92). -/
theorem exec_loop_status (n : Word) (s : State) : ∃ t, exec (.loop n) s = .next t ∧ t.status = s.status := by
  by_cases hc : s.reg .C = 0
  · exact ⟨_, exec_loop_through hc n, rfl⟩
  · exact ⟨_, exec_loop_taken hc n, rfl⟩

/-- Settles O5: `loop` leaves the CORE runnable, and the step after a jump out of the fetch region stops it. -/
theorem loopTestsC : Obligations.LoopTestsC := by
  refine ⟨fun _ => rfl, fun _ n hc => exec_loop_taken hc n, fun _ n hc => exec_loop_through hc n,
    fun s n rest hok hp hd => ?_, fun s t n hok hc hn h => ?_⟩
  · obtain ⟨t, ht, hstatus⟩ := exec_loop_status n s
    exact (progressed_iff ((step_run hok hp hd).trans ht)).mpr (hstatus.trans hok)
  · cases (exec_loop_taken hc n).symm.trans h
    have hstep := step_outside (s := s.jump n) hok hn
    exact ⟨_, hstep, rfl, fun m hm => run_error_at_once hm hok hstep nofun nofun⟩

end Sys2Proof.Machine
end

section
/-! SUPPORT. Arithmetic (42_arith.md): the quotient of two cells (R100, D5), then `add`, `sub`, `mul`, `div`, `inc` and `dec`
(R101 to R106). -/

namespace Sys2Proof.Machine

/-! ### The quotient rounded toward zero (R100, D5) -/

/-- The narrowed quotient rounded toward zero is the signed machine quotient. -/
theorem wrap32_tdiv (a b : Word) : wrap32 (Int.tdiv a.toInt b.toInt) = a.sdiv b := by
  rw [← BitVec.toInt_inj, wrap32, BitVec.toInt_ofInt, BitVec.toInt_sdiv]

/-- Only the least cell has signed value -2^31. -/
theorem toInt_eq_min_iff (a : Word) : a.toInt = -2 ^ 31 ↔ a = BitVec.intMin 32 :=
  BitVec.toInt_inj (y := BitVec.intMin 32)

/-- Only the cell of all ones has signed value -1. -/
theorem toInt_eq_neg_one_iff (b : Word) : b.toInt = -1 ↔ b = -1#32 :=
  BitVec.toInt_inj (y := -1#32)

/-- The remainder of division rounded toward zero is not positive where the dividend is not (R100). -/
theorem tmod_nonpos {a : Int} (b : Int) (ha : a ≤ 0) : a.tmod b ≤ 0 := by
  have h := Int.tmod_nonneg b (Int.neg_nonneg_of_nonpos ha)
  rw [Int.neg_tmod] at h
  exact Int.nonpos_of_neg_nonneg h

/-- The remainder by a divisor that is not zero is smaller than the divisor (R100). -/
theorem natAbs_tmod_lt (a : Int) {b : Int} (hb : b ≠ 0) : (a.tmod b).natAbs < b.natAbs := by
  rw [Int.natAbs_tmod]
  exact Nat.mod_lt _ (Int.natAbs_pos.mpr hb)

/-- Settles O13: the narrowed quotient is the signed machine quotient, exact but for -2^31 / -1, and its remainder is that of
division rounded toward zero. -/
theorem quotientFitsButOnce : Obligations.QuotientFitsButOnce := by
  intro a b hb
  rw [wrap32_tdiv, toInt_eq_min_iff, toInt_eq_neg_one_iff]
  refine ⟨?_, fun hfits => ⟨a.toInt.tdiv b.toInt, a.toInt.tmod b.toInt, ?_⟩⟩
  · rintro ⟨rfl, rfl⟩
    rw [BitVec.intMin_sdiv_neg_one, toInt_eq_min_iff]
  · have hquotient := BitVec.toInt_sdiv_of_ne_or_ne a b (not_and_or.mp hfits)
    have hdivisor : b.toInt ≠ 0 := mt (BitVec.toInt_inj (y := 0)).mp hb
    exact ⟨hquotient, (Int.tdiv_mul_add_tmod _ _).symm, natAbs_tmod_lt _ hdivisor, Int.tmod_nonneg _, tmod_nonpos _⟩

/-! ### A register operand (R73) -/

/-- An operand cell that is no register id raises ILLEGAL_OPERAND (R53, R73). -/
theorem withReg_noRegister {c : Word} (hc : NoRegister c) (stop : State) (k : Reg → Out) :
    withReg c stop k = .next (stop.raise .illegalOperand) :=
  withReg_none ((regOf_eq_none_iff c).mpr hc) stop k

/-- `add`, `sub` and `mul` of a register (R101 to R103). -/
theorem accumulate_cell (f : Int → Int → Int) (s : State) (r : Reg) :
    accumulate f r.cell s = .next ((s.advance 2).setReg .A (wrap32 (f (s.reg .A).toInt (s.reg r).toInt))) :=
  withReg_some (regOf_cell r) _ _

/-- `inc` and `dec` of a register (R105, R106). -/
theorem bump_cell (k : Int) (s : State) (r : Reg) :
    bump k r.cell s = .next ((s.advance 2).setReg r (wrap32 ((s.reg r).toInt + k))) :=
  withReg_some (regOf_cell r) _ _

/-! ### `add`, `sub`, `mul` (R101 to R103) -/

/-- Settles O6: `add` accumulates the exact sum. -/
theorem addAccumulates : Obligations.AddAccumulates :=
  ⟨fun _ => rfl, accumulate_cell _, fun _ _ hc => withReg_noRegister hc _ _⟩

/-- Settles O7: `sub` accumulates the exact difference. -/
theorem subAccumulates : Obligations.SubAccumulates :=
  ⟨fun _ => rfl, accumulate_cell _, fun _ _ hc => withReg_noRegister hc _ _⟩

/-- Settles O8: `mul` accumulates the exact product. -/
theorem mulAccumulates : Obligations.MulAccumulates :=
  ⟨fun _ => rfl, accumulate_cell _, fun _ _ hc => withReg_noRegister hc _ _⟩

/-! ### `div` (R104) -/

/-- `div` by a register that is not zero (R104). -/
theorem exec_div_nonzero {s : State} {r : Reg} (hr : s.reg r ≠ 0) :
    exec (.div r.cell) s = .next ((s.advance 2).setReg .A (wrap32 (Int.tdiv (s.reg .A).toInt (s.reg r).toInt))) := by
  rw [exec, execDiv, withReg_some (regOf_cell r), if_neg hr]

/-- `div` by a register that is zero (R104). -/
theorem exec_div_zero {s : State} {r : Reg} (hr : s.reg r = 0) :
    exec (.div r.cell) s = .next ((s.advance 2).raise .divByZero) := by
  rw [exec, execDiv, withReg_some (regOf_cell r), if_pos hr]

/-- Settles O9: the divisor is tested before A is written. -/
theorem divTruncates : Obligations.DivTruncates :=
  ⟨fun _ => rfl, fun _ _ => exec_div_nonzero, fun _ _ => exec_div_zero, fun _ _ hc => withReg_noRegister hc _ _⟩

/-! ### `inc`, `dec` (R105, R106) -/

/-- Settles O10: `inc` adds 1 to its register. -/
theorem incAddsOne : Obligations.IncAddsOne :=
  ⟨fun _ => rfl, bump_cell 1, fun _ _ hc => withReg_noRegister hc _ _⟩

/-- Settles O11: subtracting 1 is adding -1, `dec`'s constant. -/
theorem decSubtractsOne : Obligations.DecSubtractsOne :=
  ⟨fun _ => rfl, bump_cell (-1), fun _ _ hc => withReg_noRegister hc _ _⟩

end Sys2Proof.Machine
end

section
/-! SUPPORT. Moves between registers (43_move.md): `movr` (R120) and `swap` (R121). -/

namespace Sys2Proof.Machine

/-! ### `movr` (R120) -/

/-- `movr` to a register (R120). -/
theorem exec_movr_cell (s : State) (r : Reg) (n : Word) :
    exec (.movr r.cell n) s = .next ((s.advance 3).setReg r n) :=
  withReg_some (regOf_cell r) _ _

/-- Settles O14: the immediate is written once the register cell is validated. -/
theorem movrWritesTheImmediate : Obligations.MovrWritesTheImmediate :=
  ⟨fun _ _ => rfl, exec_movr_cell, fun _ _ _ hc => withReg_noRegister hc _ _⟩

/-! ### `swap` (R121) -/

/-- The register file with the values of `p` and `q` exchanged, as `swap` writes it: `p` first, then `q` (R121). -/
def Regs.exchange (x : Regs) (p q : Reg) : Regs := (x.write p (x.read q)).write q (x.read p)

/-- The second register of an exchange holds what the first one held. -/
theorem Regs.read_exchange_right (x : Regs) (p q : Reg) : (x.exchange p q).read q = x.read p :=
  Regs.read_write_self _ _ _

/-- The first register of an exchange holds what the second one held: where they are one register, the second write puts
back its own value. -/
theorem Regs.read_exchange_left (x : Regs) (p q : Reg) : (x.exchange p q).read p = x.read q := by
  by_cases h : p = q
  · subst h
    exact x.read_exchange_right p p
  · rw [Regs.exchange, Regs.read_write_ne _ _ _ _ h, Regs.read_write_self]

/-- An exchange keeps every other register. -/
theorem Regs.read_exchange_ne (x : Regs) {p q r : Reg} (hp : r ≠ p) (hq : r ≠ q) : (x.exchange p q).read r = x.read r := by
  rw [Regs.exchange, Regs.read_write_ne _ _ _ _ hq, Regs.read_write_ne _ _ _ _ hp]

/-- `swap` whose first operand is a register goes on to its second operand, with the program counter past both (R121). -/
theorem exec_swap_first_cell (s : State) (p : Reg) (d : Word) :
    exec (.swap p.cell d) s =
      withReg d (s.advance 3) fun q => .next { s with pc := s.pc + 3, regs := s.regs.exchange p q } :=
  withReg_some (regOf_cell p) _ _

/-- `swap` of two registers (R121). -/
theorem exec_swap_cells (s : State) (p q : Reg) :
    exec (.swap p.cell q.cell) s = .next { s with pc := s.pc + 3, regs := s.regs.exchange p q } :=
  (exec_swap_first_cell s p q.cell).trans (withReg_some (regOf_cell q) _ _)

/-- Settles O15: both cells are validated before the exchange, which is the whole effect. -/
theorem swapExchanges : Obligations.SwapExchanges := by
  refine ⟨fun _ _ => rfl, fun s p q => ?_, fun _ _ _ hc => withReg_noRegister hc _ _, fun s p d hd => ?_⟩
  · exact ⟨s.regs.exchange p q, exec_swap_cells s p q, s.regs.read_exchange_left p q, s.regs.read_exchange_right p q,
      fun _ => s.regs.read_exchange_ne⟩
  · exact (exec_swap_first_cell s p d).trans (withReg_noRegister hd _ _)

end Sys2Proof.Machine
end

section
/-! SUPPORT. The stack and stack-relative memory (44_stack.md): `load` (R130), `store` (R131), `push` (R132) and `pop`
(R133). -/

namespace Sys2Proof.Machine

/-! ### One cell written (R30, R41) -/

/-- A write to a cell that exists changes that cell alone. -/
theorem State.Inv.read_write_cell {s : State} (hs : s.Inv) {i : Int} (hc : s.hasCell i) (v : Word) (a : Nat) :
    (s.mem.write i.toNat v).read a = if (a : Int) = i then v else s.mem.read a := by
  have hindex : a = i.toNat ↔ (a : Int) = i := by omega
  rw [Memory.read_write _ _ _ _ hs.memWf]
  exact if_congr hindex rfl rfl

/-- Zeroing a cell that was zero before it was written gives the memory back: both are in canonical form. -/
theorem Memory.write_zero_write {m : Memory} (hm : m.wf) {a : Nat} (ha : m.read a = 0) (v : Word) :
    (m.write a v).write a 0 = m := by
  have hv := m.wf_write a v hm
  refine Memory.ext_read _ _ (Memory.wf_write _ _ _ hv) hm fun c => ?_
  rw [Memory.read_write _ _ _ _ hv]
  split
  · next h => rw [h, ha]
  · next h => exact m.read_write_ne a c v h

/-! ### `load` (R130) -/

/-- `load` inside the used window (R130). -/
theorem State.Inv.exec_load_inside {s : State} (hs : s.Inv) {n : Word} (hw : s.inWindow (s.effAddr n)) (r : Reg) :
    exec (.load r.cell n) s = .next ((s.advance 3).setReg r (s.mem.read (s.effAddr n).toNat)) := by
  rw [exec, execLoad, withReg_some (regOf_cell r), if_pos hw, State.memRead_of_hasCell (hs.hasCell_window hw)]

/-- `load` outside the used window (R130, R37). -/
theorem exec_load_outside {s : State} {n : Word} (hw : ¬ s.inWindow (s.effAddr n)) (r : Reg) :
    exec (.load r.cell n) s = .next ((s.advance 3).raise .invalidStackOperation) := by
  rw [exec, execLoad, withReg_some (regOf_cell r), if_neg hw]

/-- Settles O16: the window check decides, and under the invariant every cell of the window exists. -/
theorem loadReadsTheUsedWindow : Obligations.LoadReadsTheUsedWindow := by
  refine ⟨fun _ _ => rfl, ?_, fun _ _ _ hc => withReg_noRegister hc _ _⟩
  rintro s r n _ hs rfl
  exact ⟨fun hw => hs.exec_load_inside hw r, fun hw => exec_load_outside hw r⟩

/-! ### `store` (R131) -/

/-- `store` inside the used window (R131). -/
theorem State.Inv.exec_store_inside {s : State} (hs : s.Inv) {n : Word} (hw : s.inWindow (s.effAddr n)) (r : Reg) :
    exec (.store r.cell n) s =
      .next { s with pc := s.pc + 3, mem := s.mem.write (s.effAddr n).toNat (s.reg r) } := by
  have hcell : (s.advance 3).hasCell (s.effAddr n) := hs.hasCell_window hw
  rw [exec, execStore, withReg_some (regOf_cell r), if_pos hw, State.memWrite_of_hasCell hcell]
  rfl

/-- `store` outside the used window (R131, R37). -/
theorem exec_store_outside {s : State} {n : Word} (hw : ¬ s.inWindow (s.effAddr n)) (r : Reg) :
    exec (.store r.cell n) s = .next ((s.advance 3).raise .invalidStackOperation) := by
  rw [exec, execStore, withReg_some (regOf_cell r), if_neg hw]

/-- Settles O17: the window check is `load`'s, and the one write is at the effective address. -/
theorem storeWritesTheUsedWindow : Obligations.StoreWritesTheUsedWindow := by
  refine ⟨fun _ _ => rfl, ?_, fun _ _ _ hc => withReg_noRegister hc _ _⟩
  rintro s r n _ hs rfl
  exact ⟨fun hw => ⟨_, hs.exec_store_inside hw r, hs.read_write_cell (hs.hasCell_window hw) _⟩,
    fun hw => exec_store_outside hw r⟩

/-! ### `push` (R132) -/

/-- `push` on a stack that is full (R132). -/
theorem exec_push_full {s : State} (hf : s.stackFull) (r : Reg) :
    exec (.push r.cell) s = .next ((s.advance 2).raise .invalidStackOperation) := by
  rw [exec, execPush, withReg_some (regOf_cell r), if_pos hf]

/-- The state with `v` in the next free slot and past the two cells of `push` (R132). -/
def State.pushed (s : State) (v : Word) : State :=
  { s with pc := s.pc + 2, ssize := s.ssize + 1, mem := s.mem.write s.sp.toNat v }

/-- The top slot after a push is the slot that was free before it (R19). -/
theorem State.pushed_top (s : State) (v : Word) : (s.pushed v).sp + 1 = s.sp := by
  simp only [State.sp, State.pushed]
  omega

/-- `push` on a stack that is not full (R132). -/
theorem State.Inv.exec_push_room {s : State} (hs : s.Inv) (hf : ¬ s.stackFull) (r : Reg) :
    exec (.push r.cell) s = .next (s.pushed (s.reg r)) := by
  have hcell : (s.advance 2).hasCell s.sp := hs.hasCell_sp hf
  rw [exec, execPush, withReg_some (regOf_cell r), if_neg hf, State.memWrite_of_hasCell hcell]
  rfl

/-- Settles O18: under the invariant the stack is full at `CAP` cells, and below that its next slot exists. -/
theorem pushFillsTheNextSlot : Obligations.PushFillsTheNextSlot := by
  refine ⟨fun _ => rfl, fun s r hs hcap => exec_push_full (hs.stackFull_iff.mpr hcap) r, fun s r hs hcap => ?_,
    fun _ _ hc => withReg_noRegister hc _ _⟩
  have hf := mt hs.stackFull_iff.mp hcap
  exact ⟨_, hs.exec_push_room hf r, hs.read_write_cell (hs.hasCell_sp hf) _⟩

/-! ### `pop` (R133) -/

/-- `pop` from a stack that is empty (R133). -/
theorem exec_pop_empty {s : State} (h0 : s.ssize = 0) (r : Reg) :
    exec (.pop r.cell) s = .next ((s.advance 2).raise .invalidStackOperation) := by
  rw [exec, execPop, withReg_some (regOf_cell r), if_pos h0]

/-- `pop` from a stack that is not empty and whose top slot exists (R133). -/
theorem exec_pop_used {s : State} (h0 : s.ssize ≠ 0) (hc : s.hasCell (s.sp + 1)) (r : Reg) :
    exec (.pop r.cell) s = .next { s with
      pc := s.pc + 2, ssize := s.ssize - 1, mem := s.mem.write (s.sp + 1).toNat 0,
      regs := s.regs.write r (s.mem.read (s.sp + 1).toNat) } := by
  have hcell : (s.advance 2).hasCell (s.sp + 1) := hc
  rw [exec, execPop, withReg_some (regOf_cell r), if_neg h0, State.memRead_of_hasCell hc, State.memWrite_of_hasCell hcell]
  rfl

/-- Settles O19: under the invariant the top slot of a stack that is not empty exists. -/
theorem popFreesTheTop : Obligations.PopFreesTheTop := by
  refine ⟨fun _ => rfl, fun s r h0 => exec_pop_empty h0 r, fun s r hs h0 => ?_, fun _ _ hc => withReg_noRegister hc _ _⟩
  have hcell := hs.hasCell_top h0
  exact ⟨_, exec_pop_used h0 hcell r, hs.read_write_cell hcell 0⟩

/-! ### `push` and then `pop` (R132) -/

/-- Under the invariant the next free slot of a stack that is not full holds zero (I-d). -/
theorem State.Inv.read_sp {s : State} (hs : s.Inv) (hf : ¬ s.stackFull) : s.mem.read s.sp.toNat = 0 := by
  obtain ⟨hpos, -⟩ := hs.hasCell_sp hf
  have hcap := mt hs.stackFull_iff.mpr hf
  have htop := hs.top
  have hsize := hs.size
  have hsp : s.sp = s.sb - (s.ssize : Int) := rfl
  exact hs.unusedZero _ (by omega) (by omega)

/-- Settles O20: `pop` reads and zeroes the slot `push` has filled, which held zero before (I-d). -/
theorem popUndoesPush : Obligations.PopUndoesPush := by
  intro s r hs hcap
  have hf := mt hs.stackFull_iff.mp hcap
  have hcell : (s.pushed (s.reg r)).hasCell ((s.pushed (s.reg r)).sp + 1) := by
    rw [State.pushed_top]
    exact hs.hasCell_sp hf
  refine ⟨_, hs.exec_push_room hf r, ?_⟩
  rw [exec_pop_used (Nat.succ_ne_zero _) hcell, State.pushed_top]
  simp only [State.pushed, Nat.add_sub_cancel, Memory.read_write_self _ _ _ hs.memWf,
    Memory.write_zero_write hs.memWf (hs.read_sp hf), State.reg, Regs.write_read]

end Sys2Proof.Machine
end

section
/-! SUPPORT. Input and output (45_io.md): the decimal text of an event (R150), what a taken answer does to its port (R151,
R152), the events `out` and `put` append (R153, R154), and the environment frame (R155). -/

namespace Sys2Proof.Machine

/-! ### The decimal text (R150) -/

/-- `ds` are the digits of the shortest decimal numeral of `n`, first digit first (R150). -/
structure ShortestNumeral (ds : List Nat) (n : Nat) : Prop where
  nonempty : ds ≠ []
  digit : ∀ d ∈ ds, d < 10
  noLeadingZero : ds.head? = some 0 → ds = [0]
  value : ds.foldl (fun acc d => 10 * acc + d) 0 = n

theorem ShortestNumeral.single {d : Nat} (hd : d < 10) : ShortestNumeral [d] d := by
  constructor <;> simp [hd]

/-- A numeral of a number that is not zero stays shortest with a digit more: its first digit is not zero. -/
theorem ShortestNumeral.snoc {ds : List Nat} {n d : Nat} (h : ShortestNumeral ds n) (hn : n ≠ 0) (hd : d < 10) :
    ShortestNumeral (ds ++ [d]) (10 * n + d) where
  nonempty := by simp
  digit := by simpa [or_imp, forall_and, hd] using h.digit
  noLeadingZero hzero := by
    rw [List.head?_append_of_ne_nil _ h.nonempty] at hzero
    have hvalue := h.value
    rw [h.noLeadingZero hzero] at hvalue
    exact absurd hvalue.symm hn
  value := by rw [List.foldl_append, h.value, List.foldl_cons, List.foldl_nil]

/-- With fuel for every digit of `n`, `digits` is its shortest numeral in ASCII. -/
theorem digits_shortest (fuel : Nat) {n : Nat} (hn : n < 10 ^ (fuel + 1)) :
    ∃ ds, ShortestNumeral ds n ∧ digits (fuel + 1) n = ds.map fun d => BitVec.ofNat 8 (48 + d) := by
  induction fuel generalizing n with
  | zero => exact ⟨[n], .single hn, if_pos hn⟩
  | succ fuel ih =>
    by_cases hsmall : n < 10
    · exact ⟨[n], .single hsmall, if_pos hsmall⟩
    · obtain ⟨ds, hds, htext⟩ := ih (Nat.div_lt_of_lt_mul (Nat.pow_succ' ▸ hn))
      have hmore := hds.snoc (by omega : n / 10 ≠ 0) (Nat.mod_lt n (by decide : 0 < 10))
      rw [Nat.div_add_mod] at hmore
      refine ⟨_, hmore, ?_⟩
      rw [digits, if_neg hsmall, htext, List.map_append, List.map_singleton]

/-- Settles O27: ten digits are enough for the magnitude of a cell. -/
theorem decimalTextIsShortest : Obligations.DecimalTextIsShortest := by
  intro v
  have hlo := BitVec.le_toInt v
  have hhi := BitVec.toInt_lt (x := v)
  obtain ⟨ds, ⟨hne, hdigit, hzero, hvalue⟩, htext⟩ := digits_shortest 9 (n := v.toInt.natAbs) (by omega)
  exact ⟨ds, hne, hdigit, hzero, hvalue, by rw [decText, htext]⟩

/-! ### The environment frame (R155) -/

/-- The decimal port gives its first ready answer, or the free one where none is ready, and changes its own list and count
alone (R150, log entry 17). -/
theorem Env.askDec_eq_some {e f : Env} {a : DecAnswer} (h : e.askDec = some (a, f)) :
    (∀ b rest, e.decIn = b :: rest → a = b) ∧ (e.decIn = [] → a = Config.decAnswer e.decAsked) ∧
    f = { e with decIn := e.decIn.tail, decAsked := e.decAsked + 1 } := by
  rcases e.askDec_cases with ⟨b, rest, hin, hr⟩ | ⟨hin, -, hr⟩ | ⟨-, -, hr⟩
  · cases hr.symm.trans h
    simp [hin]
  · cases hr.symm.trans h
    simp [hin]
  · cases hr.symm.trans h

/-- The byte port gives its first ready answer, or the free one where none is ready, and changes its own list and count
alone (R150, log entry 17). -/
theorem Env.askByte_eq_some {e f : Env} {a : ByteAnswer} (h : e.askByte = some (a, f)) :
    (∀ b rest, e.byteIn = b :: rest → a = b) ∧ (e.byteIn = [] → a = Config.byteAnswer e.byteAsked) ∧
    f = { e with byteIn := e.byteIn.tail, byteAsked := e.byteAsked + 1 } := by
  rcases e.askByte_cases with ⟨b, rest, hin, hr⟩ | ⟨hin, -, hr⟩ | ⟨-, -, hr⟩
  · cases hr.symm.trans h
    simp [hin]
  · cases hr.symm.trans h
    simp [hin]
  · cases hr.symm.trans h

/-- An instruction keeps the environment, or is one of the four port instructions and changes the fields of its own port
(R76, R155). -/
theorem Effect.env {i : Instr} {s t : State} (h : Effect i s t) :
    t.env = s.env ∨
    (∃ c, i = .in_ c ∧ t.env = { s.env with decIn := s.env.decIn.tail, decAsked := s.env.decAsked + 1 }) ∨
    (∃ c, i = .get c ∧ t.env = { s.env with byteIn := s.env.byteIn.tail, byteAsked := s.env.byteAsked + 1 }) ∨
    (∃ c o, (i = .out c ∨ i = .put c) ∧ t.env = { s.env with sink := s.env.sink ++ [o] }) := by
  cases h with
  | tookDec r a e hi ha =>
    obtain ⟨-, -, -, -, -, -, henv⟩ := ((s.advance 2).setEnv e).takeDec_keeps r a
    obtain ⟨-, -, rfl⟩ := Env.askDec_eq_some ha
    exact .inr (.inl ⟨_, hi, henv⟩)
  | tookByte r a e hi ha =>
    obtain ⟨-, -, -, -, -, -, henv, -⟩ := ((s.advance 2).setEnv e).takeByte_keeps r a
    obtain ⟨-, -, rfl⟩ := Env.askByte_eq_some ha
    exact .inr (.inr (.inl ⟨_, hi, henv⟩))
  | emitted r o hi => exact .inr (.inr (.inr ⟨_, o, hi.imp_right And.left, rfl⟩))
  | _ => exact .inl rfl

/-- Settles O43: the change `Effect.env` gives each port instruction is to fields of its own port. -/
theorem onlyPortInstructionsTouchTheEnvironment : Obligations.OnlyPortInstructionsTouchTheEnvironment := by
  intro i s t h
  rcases (exec_effect h).env with henv | ⟨c, hi, henv⟩ | ⟨c, hi, henv⟩ | ⟨c, o, hi, henv⟩ <;> rw [henv]
  · simp
  · exact ⟨fun hin => absurd hi (hin c), by simp⟩
  · exact ⟨by simp, fun hget => absurd hi (hget c), by simp⟩
  · exact ⟨by simp, by simp, fun hout hput => absurd hi (not_or.mpr ⟨hout c, hput c⟩), rfl, rfl⟩

/-! ### `in`, `get` (R151, R152) -/

/-- Settles O22: the answer the decimal port gives decides which of the three effects `in` has. -/
theorem inTakesOneDecimalAnswer : Obligations.InTakesOneDecimalAnswer := by
  refine ⟨fun _ => rfl, fun s r hs => ?_, fun _ _ hc => withReg_noRegister hc _ _⟩
  obtain ⟨a, e, ha⟩ := Env.askDec_of_answers hs
  obtain ⟨hready, hfree, rfl⟩ := Env.askDec_eq_some ha
  refine ⟨a, _, hready, hfree, rfl, (exec_in_answered ha r).trans ?_⟩
  cases a <;> rfl

/-- A byte answer is zero-extended: the register gets the byte's value (R152, D26). -/
theorem State.takeByte_byte (s : State) (r : Reg) (b : Byte) :
    s.takeByte r (.byte b) = s.setReg r (BitVec.ofNat 32 b.toNat) := by
  rw [BitVec.ofNat_toNat]
  rfl

/-- Settles O23: the answer the byte port gives decides which of the two effects `get` has. -/
theorem getTakesOneByteAnswer : Obligations.GetTakesOneByteAnswer := by
  refine ⟨fun _ => rfl, fun s r hs => ?_, fun _ _ hc => withReg_noRegister hc _ _⟩
  obtain ⟨a, e, ha⟩ := Env.askByte_of_answers hs
  obtain ⟨hready, hfree, rfl⟩ := Env.askByte_eq_some ha
  refine ⟨a, _, hready, hfree, rfl, (exec_get_answered ha r).trans ?_⟩
  cases a with
  | byte b => exact congrArg _ (State.takeByte_byte _ r b)
  | eof => rfl

/-! ### `out`, `put` (R153, R154) -/

/-- `out` of a register (R153). -/
theorem exec_out_cell (s : State) (r : Reg) : exec (.out r.cell) s = .next ((s.advance 2).emit (.dec (s.reg r))) :=
  withReg_some (regOf_cell r) _ _

/-- Settles O24: `out` appends the event of its register. -/
theorem outAppendsADecimal : Obligations.OutAppendsADecimal :=
  ⟨fun _ => rfl, exec_out_cell, fun _ _ hc => withReg_noRegister hc _ _⟩

/-- `put` of a register that holds a byte (R154). -/
theorem exec_put_byte {s : State} {r : Reg} (hb : 0 ≤ (s.reg r).toInt ∧ (s.reg r).toInt ≤ 255) :
    exec (.put r.cell) s = .next ((s.advance 2).emit (.byte ((s.reg r).setWidth 8))) := by
  rw [exec, execPut, withReg_some (regOf_cell r), if_pos hb]

/-- `put` of a register that holds no byte (R154). -/
theorem exec_put_no_byte {s : State} {r : Reg} (hb : ¬ (0 ≤ (s.reg r).toInt ∧ (s.reg r).toInt ≤ 255)) :
    exec (.put r.cell) s = .next ((s.advance 2).raise .illegalOperand) := by
  rw [exec, execPut, withReg_some (regOf_cell r), if_neg hb]

/-- Narrowing a cell whose value is a byte keeps the value. -/
theorem toNat_setWidth_of_byte {w : Word} (h0 : 0 ≤ w.toInt) (h255 : w.toInt ≤ 255) :
    ((w.setWidth 8).toNat : Int) = w.toInt := by
  rw [BitVec.toInt_eq_toNat_cond] at h0 h255 ⊢
  rw [BitVec.toNat_setWidth]
  omega

/-- Settles O25: `put` tests the whole signed value of its register before it narrows it. -/
theorem putAppendsAByte : Obligations.PutAppendsAByte :=
  ⟨fun _ => rfl, fun _ _ h0 h255 => ⟨_, toNat_setWidth_of_byte h0 h255, exec_put_byte ⟨h0, h255⟩⟩,
    fun _ _ => exec_put_no_byte, fun _ _ hc => withReg_noRegister hc _ _⟩

end Sys2Proof.Machine
end

section
/-! SUPPORT. Exceptions (60_exceptions.md): why an instruction or a step stops (R171 to R177), and what a stop leaves
unchanged (R181). -/

namespace Sys2Proof

/-- Only a cell outside the opcode map makes the decoder reject an opcode (R57). -/
theorem no_opcode_of_decode {op bad : Word} {rest : List Word} (h : decode (op :: rest) = .illegalOpcode bad) :
    ¬ (0 ≤ op.toInt ∧ op.toInt ≤ 18) := by
  cases decodesAs op rest with
  | bare i _ hd => cases hd.symm.trans h
  | one mk _ _ _ hd => exact absurd (hd.symm.trans h) (decodeOne_ne_illegalOpcode mk rest bad)
  | two mk _ hd => exact absurd (hd.symm.trans h) (decodeTwo_ne_illegalOpcode mk rest bad)
  | illegal hop _ => exact hop

end Sys2Proof

namespace Sys2Proof.Machine

/-! ### Why an instruction stops (R171 to R177) -/

/-- What makes an instruction stop with a status. -/
inductive StopCause (s : State) : Instr → Status → Prop
  /-- R171 -/
  | halt : StopCause s .halt .halted
  /-- R173, an operand cell that is no register id -/
  | noRegister {i : Instr} {c : Word} : c ∈ i.regCells → NoRegister c → StopCause s i .illegalOperand
  /-- R173, R154 -/
  | noByte {r : Reg} : ¬ (0 ≤ (s.reg r).toInt ∧ (s.reg r).toInt ≤ 255) → StopCause s (.put r.cell) .illegalOperand
  /-- R175, R132 -/
  | full {r : Reg} : s.stackFull → StopCause s (.push r.cell) .invalidStackOperation
  /-- R175, R133 -/
  | empty {r : Reg} : s.ssize = 0 → StopCause s (.pop r.cell) .invalidStackOperation
  /-- R175, R130 -/
  | loadOutside {r : Reg} {n : Word} : ¬ s.inWindow (s.effAddr n) → StopCause s (.load r.cell n) .invalidStackOperation
  /-- R175, R131 -/
  | storeOutside {r : Reg} {n : Word} : ¬ s.inWindow (s.effAddr n) → StopCause s (.store r.cell n) .invalidStackOperation
  /-- R176 -/
  | zeroDivisor {r : Reg} : s.reg r = 0 → StopCause s (.div r.cell) .divByZero
  /-- R177 -/
  | parseFail {r : Reg} {e : Env} : s.env.askDec = some (.parseFail, e) → StopCause s (.in_ r.cell) .ioError

/-- The one operand cell of an instruction, where it is no register id, raises ILLEGAL_OPERAND (R73). -/
theorem withReg_of_mem {c d : Word} (hd : d ∈ [c]) (hn : NoRegister d) (stop : State) (k : Reg → Out) :
    withReg c stop k = .next (stop.raise .illegalOperand) :=
  withReg_noRegister (List.mem_singleton.mp hd ▸ hn) stop k

/-- An instruction with an operand cell that is no register id raises ILLEGAL_OPERAND, and only `swap` can have read a cell
more (R73, D11). -/
theorem exec_noRegister {i : Instr} {c : Word} (hc : c ∈ i.regCells) (hn : NoRegister c) (s : State) :
    ∃ k, RaisesIllegalOperand i s k := by
  cases i
  case nop | halt | loop => cases hc
  case swap c₁ c₂ =>
    cases hp : regOf c₁ with
    | none => exact ⟨2, withReg_none hp _ _⟩
    | some p =>
      obtain rfl := regOf_eq_some hp
      obtain rfl : c = c₂ := by
        rw [← regOf_eq_none_iff] at hn
        rcases List.mem_pair.mp hc with rfl | rfl
        · cases hp.symm.trans hn
        · rfl
      exact ⟨3, (exec_swap_first_cell s p c).trans (withReg_noRegister hn _ _)⟩
  all_goals exact ⟨2, withReg_of_mem hc hn _ _⟩

/-- Every cause stops its instruction. -/
theorem StopCause.exec {s : State} {i : Instr} {e : Status} (h : StopCause s i e) :
    ∃ t, Machine.exec i s = .next t ∧ t.status = e := by
  cases h with
  | halt => exact ⟨_, rfl, rfl⟩
  | noRegister hc hn =>
    obtain ⟨k, hk⟩ := exec_noRegister hc hn s
    exact ⟨_, hk, rfl⟩
  | noByte hb => exact ⟨_, exec_put_no_byte hb, rfl⟩
  | full hf => exact ⟨_, exec_push_full hf _, rfl⟩
  | empty h0 => exact ⟨_, exec_pop_empty h0 _, rfl⟩
  | loadOutside hw => exact ⟨_, exec_load_outside hw _, rfl⟩
  | storeOutside hw => exact ⟨_, exec_store_outside hw _, rfl⟩
  | zeroDivisor hr => exact ⟨_, exec_div_zero hr, rfl⟩
  | parseFail ha => exact ⟨_, exec_in_answered ha _, rfl⟩

/-! ### What a stop leaves unchanged (R181) -/

/-- From `s` to `t` only the program counter, the status and, for IO_ERROR, what the environment has consumed differ
(R181). -/
structure PreciseStop (s t : State) : Prop where
  frame : t = { s with pc := t.pc, status := t.status, env := t.env }
  sink : t.env.sink = s.env.sink
  env : t.status ≠ .ioError → t.env = s.env

/-- A stop that moves the program counter and latches a status is precise. -/
theorem PreciseStop.of_pc_status (s : State) (pc : Word) (e : Status) : PreciseStop s { s with pc := pc, status := e } :=
  ⟨rfl, rfl, fun _ => rfl⟩

/-- Only IO_ERROR leaves a trace in the environment. -/
theorem PreciseStop.eq_of_status {s t : State} {e : Status} (h : PreciseStop s t) (ht : t.status = e) (he : e ≠ .ioError) :
    t = { s with pc := t.pc, status := e } := by
  subst ht
  have hframe := h.frame
  rwa [h.env he] at hframe

/-- An instruction that stops a runnable CORE has a cause, and stops it precisely. -/
theorem Effect.stop {i : Instr} {s t : State} (h : Effect i s t) (hs : s.status = .ok) (ht : t.status ≠ .ok) :
    StopCause s i t.status ∧ PreciseStop s t := by
  cases h with
  | halted hi =>
    subst hi
    exact ⟨.halt, .of_pc_status s _ _⟩
  | badOperand k hc =>
    obtain ⟨c, hc, hn⟩ := hc
    exact ⟨.noRegister hc ((regOf_eq_none_iff c).mp hn), .of_pc_status s _ _⟩
  | badByte r hi hb =>
    subst hi
    exact ⟨.noByte hb, .of_pc_status s _ _⟩
  | zeroDivisor r hi hr =>
    subst hi
    exact ⟨.zeroDivisor hr, .of_pc_status s _ _⟩
  | badStack k r hi =>
    refine ⟨?_, .of_pc_status s _ _⟩
    rcases hi with ⟨rfl, hf⟩ | ⟨rfl, h0⟩ | ⟨n, rfl | rfl, hw⟩
    · exact .full hf
    · exact .empty h0
    · exact .loadOutside hw
    · exact .storeOutside hw
  | tookDec r a e hi ha =>
    subst hi
    cases a with
    | parseFail => exact ⟨.parseFail ha, rfl, Env.sink_of_askDec ha, fun he => absurd rfl he⟩
    | int v => exact absurd hs ht
    | eof => exact absurd hs ht
  | tookByte r a e =>
    obtain ⟨-, -, -, -, -, -, -, hstatus⟩ := ((s.advance 2).setEnv e).takeByte_keeps r a
    exact absurd (hstatus.trans hs) ht
  | _ => exact absurd hs ht

/-- An instruction stops a runnable CORE with a status exactly when there is a cause for it. -/
theorem exec_status_iff {i : Instr} {s t : State} (e : Status) (hs : s.status = .ok) (h : exec i s = .next t)
    (he : e ≠ .ok) : t.status = e ↔ StopCause s i e := by
  refine ⟨?_, fun hc => ?_⟩
  · rintro rfl
    exact ((exec_effect h).stop hs he).1
  · obtain ⟨u, hu, hstatus⟩ := hc.exec
    cases hu.symm.trans h
    exact hstatus

/-- An instruction that stops a runnable CORE does so precisely (R181). -/
theorem exec_precise {i : Instr} {s t : State} {e : Status} (hs : s.status = .ok) (h : exec i s = .next t)
    (ht : t.status = e) (he : e ≠ .ok) : PreciseStop s t :=
  ((exec_effect h).stop hs (ht ▸ he)).2

/-- Settles O33: two of the causes raise ILLEGAL_OPERAND. -/
theorem illegalOperandHasTwoCauses : Obligations.IllegalOperandHasTwoCauses := by
  intro i s t hs h
  refine ⟨?_, fun ht => (exec_precise hs h ht nofun).eq_of_status ht nofun⟩
  rw [exec_status_iff .illegalOperand hs h nofun]
  constructor
  · rintro (_ | ⟨hc, hn⟩ | hb)
    · exact .inl ⟨_, hc, hn⟩
    · exact .inr ⟨_, rfl, hb⟩
  · rintro (⟨c, hc, hn⟩ | ⟨r, rfl, hb⟩)
    · exact .noRegister hc hn
    · exact .noByte hb

/-- Settles O34: four of the causes raise INVALID_STACK_OPERATION, and under the invariant a full stack is one of `CAP`
cells. -/
theorem invalidStackOperationHasThreeCauses : Obligations.InvalidStackOperationHasThreeCauses := by
  intro i s t hinv hs h
  refine ⟨?_, fun ht => (exec_precise hs h ht nofun).eq_of_status ht nofun⟩
  rw [exec_status_iff .invalidStackOperation hs h nofun, ← hinv.stackFull_iff]
  constructor
  · intro hc
    cases hc with
    | full hf => exact ⟨_, .inl ⟨rfl, hf⟩⟩
    | empty h0 => exact ⟨_, .inr (.inl ⟨rfl, h0⟩)⟩
    | loadOutside hw => exact ⟨_, .inr (.inr ⟨_, .inl rfl, hw⟩)⟩
    | storeOutside hw => exact ⟨_, .inr (.inr ⟨_, .inr rfl, hw⟩)⟩
  · rintro ⟨r, ⟨rfl, hf⟩ | ⟨rfl, h0⟩ | ⟨n, rfl | rfl, hw⟩⟩
    · exact .full hf
    · exact .empty h0
    · exact .loadOutside hw
    · exact .storeOutside hw

/-- Settles O35: each of the three statuses has one cause. -/
theorem otherStopsHaveOneCause : Obligations.OtherStopsHaveOneCause := by
  intro i s t hs h
  refine ⟨?_, ?_, ?_, fun ht => (exec_precise hs h ht nofun).eq_of_status ht nofun, fun ht => ?_⟩
  · rw [exec_status_iff .halted hs h nofun]
    exact ⟨fun | .halt => rfl, fun hi => hi ▸ .halt⟩
  · rw [exec_status_iff .divByZero hs h nofun]
    exact ⟨fun | .zeroDivisor hr => ⟨_, rfl, hr⟩, fun ⟨_, hi, hr⟩ => hi ▸ .zeroDivisor hr⟩
  · rw [exec_status_iff .ioError hs h nofun]
    exact ⟨fun | .parseFail ha => ⟨_, _, rfl, ha⟩, fun ⟨_, _, hi, ha⟩ => hi ▸ .parseFail ha⟩
  · have hframe := (exec_precise hs h ht nofun).frame
    rwa [ht] at hframe

/-! ### Why a step stops (R172, R174) -/

/-- How a step of a runnable CORE comes to its next state. -/
inductive RunnableStep (s : State) : State → Prop
  /-- the program-counter check -/
  | outside : ¬ s.pcInRegion → RunnableStep s (s.raise .invalidAddress)
  /-- the opcode check -/
  | noOpcode (op : Word) : s.pcInRegion → decode s.fetchCells = .illegalOpcode op →
      RunnableStep s (s.raise .illegalInstruction)
  /-- the check of a register operand that memory ends after -/
  | noRegister : RunnableStep s ((s.advance 2).raise .illegalOperand)
  /-- an instruction's meaning -/
  | executed {t : State} (i : Instr) : exec i s = .next t → RunnableStep s t

/-- A step of a runnable CORE comes to its next state in one of these ways (R71). -/
theorem step_runnable {s t : State} (hs : s.status = .ok) (h : step s = .next t) : RunnableStep s t := by
  rcases step_cases s with
    ⟨hn, -⟩ | ⟨-, hp, hr⟩ | ⟨-, hp, ⟨i, rest, -, hr⟩ | ⟨-, hr⟩ | ⟨op, hd, hr⟩ | ⟨r, -, hr⟩ | ⟨-, hr⟩⟩
  · exact absurd hs hn
  · cases hr.symm.trans h
    exact .outside hp
  · exact .executed i (hr.symm.trans h)
  · cases hr.symm.trans h
  · cases hr.symm.trans h
    exact .noOpcode op hp hd
  · cases hr.symm.trans h
    exact .noRegister
  · cases hr.symm.trans h

/-- Settles O31: of the ways a step can end only the program-counter check raises INVALID_ADDRESS. -/
theorem invalidAddressIsThePcCheck : Obligations.InvalidAddressIsThePcCheck := by
  refine fun s hs => ⟨fun hp => step_outside hs (by omega), fun t h ht => ?_⟩
  cases step_runnable hs h with
  | outside hp => omega
  | noOpcode | noRegister => cases ht
  | executed i hi => cases (exec_status_iff .invalidAddress hs hi nofun).mp ht

/-- Under the invariant the cells fetched in the fetch region start with the one at the program counter. -/
theorem State.Inv.fetchCells_cons {s : State} (hs : s.Inv) (hp : s.pcInRegion) :
    ∃ rest, s.fetchCells = s.mem.read s.pc.toInt.toNat :: rest := by
  have hn := hs.st_le_n
  exact ⟨_, s.cellsFrom_succ _ 2 (by omega)⟩

/-- A runnable CORE whose opcode cell is rejected stops there (R57, R172). -/
theorem step_illegalOpcode {s : State} {op : Word} (hs : s.status = .ok) (hp : s.pcInRegion)
    (hd : decode s.fetchCells = .illegalOpcode op) : step s = .next (s.raise .illegalInstruction) := by
  simp only [step, fetch, hs, hd, ne_eq, not_true_eq_false, if_false, if_pos hp]

/-- Settles O32: of the ways a step can end only the opcode check raises ILLEGAL_INSTRUCTION, and it looks at the cell at the
program counter. -/
theorem illegalInstructionIsTheOpcodeCheck : Obligations.IllegalInstructionIsTheOpcodeCheck := by
  refine fun s hinv hs => ⟨fun hp hop => ?_, fun t h ht => ?_⟩
  · obtain ⟨rest, hcells⟩ := hinv.fetchCells_cons hp
    exact step_illegalOpcode hs hp (hcells ▸ decode_of_no_opcode (by omega) rest)
  · cases step_runnable hs h with
    | noOpcode op hp hd =>
      obtain ⟨rest, hcells⟩ := hinv.fetchCells_cons hp
      rw [hcells] at hd
      have hop := no_opcode_of_decode hd
      exact ⟨hp, by omega⟩
    | outside | noRegister => cases ht
    | executed i hi => cases (exec_status_iff .illegalInstruction hs hi nofun).mp ht

/-- Settles O36: the checks before an instruction touch program counter and status alone, and an instruction stops
precisely. -/
theorem errorStopsArePrecise : Obligations.ErrorStopsArePrecise := by
  intro s t hs h herr
  suffices hprecise : PreciseStop s t from ⟨hprecise.frame, hprecise.sink, hprecise.env⟩
  obtain ⟨hok, -⟩ := t.status.isError_iff.mp herr
  cases step_runnable hs h with
  | outside | noOpcode | noRegister => exact .of_pc_status s _ _
  | executed i hi => exact exec_precise hs hi rfl hok

end Sys2Proof.Machine
end

section
/-! SUPPORT. Reset, refused loads and creates (70_reset_and_hazards.md): the warm reset gives back the created state (R203),
only the reset leaves a stop (R12, R16), and a ragged binary or a layout that does not fit gives no machine (R201, R202). -/

namespace Sys2Proof

/-- The cells of a binary take four bytes each (R38). -/
theorem length_of_cellsOfBytes {order : ByteOrder} {bytes : List Byte} {cs : List Word}
    (h : cellsOfBytes order bytes = some cs) : bytes.length = 4 * cs.length := by
  induction bytes using cellsOfBytes.induct generalizing cs with
  | case1 =>
    cases h
    rfl
  | case2 b0 b1 b2 b3 rest ih =>
    obtain ⟨ds, hds, rfl⟩ := Option.map_eq_some_iff.mp h
    simp only [List.length_cons, ih hds]
    omega
  | case3 => simp [cellsOfBytes] at h

/-- A binary whose length is no multiple of four has no cells (R201). -/
theorem cellsOfBytes_ragged (order : ByteOrder) {bytes : List Byte} (h : bytes.length % 4 ≠ 0) :
    cellsOfBytes order bytes = none := by
  refine Option.eq_none_iff_forall_ne_some.mpr fun cs hcs => h ?_
  rw [length_of_cellsOfBytes hcs, Nat.mul_mod_right]

end Sys2Proof

namespace Sys2Proof.Machine

/-! ### Refused loads and creates (R201, R202) -/

/-- A ragged binary fails to load before the layout is looked at (R201, D24). -/
theorem load_ragged (order : ByteOrder) {bytes : List Byte} (cap : Int) (n : Nat) (h : bytes.length % 4 ≠ 0) :
    load order bytes cap n = .refused .loadFailed := by
  rw [load, cellsOfBytes_ragged order h]

/-- A whole binary is refused a negative capacity (R4, D23). -/
theorem load_negative_cap (order : ByteOrder) (cs : List Word) {cap : Int} (n : Nat) (h : cap < 0) :
    load order (bytesOfCells order cs) cap n = .refused .layoutRefused := by
  rw [load, cellsOfBytes_bytesOfCells]
  exact if_neg fun ⟨h0, _⟩ => h.not_ge h0

/-- `create` is refused a bottom index or a capacity that is not the load's (R202, D32). -/
theorem create_mismatched {img : Image} {sb cap : Int} (env : Env) (h : sb ≠ img.sb ∨ cap ≠ img.params.cap) :
    create img sb cap env = .refused .layoutRefused := if_neg (not_and_or.mpr h)

/-- Settles O54: the three refusals, the ragged binary's by the four bytes of every cell. -/
theorem badLoadsAndCreatesAreRefused : Obligations.BadLoadsAndCreatesAreRefused :=
  ⟨fun order _ cap n h => load_ragged order cap n h, fun order cs _ n h => load_negative_cap order cs n h,
    fun _ _ _ env h => create_mismatched env h⟩

/-! ### The warm reset (R203) -/

/-- With an empty stack every cell of the stack region is unused, and so zero (I-d). -/
theorem State.Inv.read_empty_stack {s : State} (hs : s.Inv) (h0 : s.ssize = 0) {a : Nat} (ha : s.inStackRegion a) :
    s.mem.read a = 0 := by
  refine hs.unusedZero a ha.1 ?_
  rw [State.sp, h0]
  omega

/-- The warm reset leaves a state as `create` does (R203, R25). -/
theorem State.Inv.fresh_warmReset {s : State} (hs : s.Inv) : s.warmReset.Fresh :=
  ⟨hs.after_warmReset, rfl, rfl, rfl, rfl⟩

/-- In the life of a created CORE a state as `create` leaves it has the created memory: its stack region is zero and the
rest is read-only (R24, R44). -/
theorem Reach.mem_eq_of_fresh {c s : State} (h : Reach c s) (hc : c.Fresh) (hs : s.Fresh) : s.mem = c.mem := by
  refine Memory.ext_read _ _ hs.inv.memWf hc.inv.memWf fun a => ?_
  by_cases ha : c.inStackRegion a
  · have has : s.inStackRegion a := by rwa [State.inStackRegion, h.sameLayout.st, h.sameLayout.sb]
    rw [hs.inv.read_empty_stack hs.ssize has, hc.inv.read_empty_stack hc.ssize ha]
  · exact fetchRegionIsReadOnly c s hc.inv h a ha

/-- In the life of a created CORE a state as `create` leaves it is the created state, but for the environment. -/
theorem Reach.eq_of_fresh {c s : State} (h : Reach c s) (hc : c.Fresh) (hs : s.Fresh) : s = { c with env := s.env } := by
  obtain ⟨hst, hsb, hparams⟩ := h.sameLayout
  rw [State.mk.injEq]
  exact ⟨hs.regs.trans hc.regs.symm, hs.pc.trans hc.pc.symm, hs.status.trans hc.status.symm,
    hs.ssize.trans hc.ssize.symm, hst, hsb, h.mem_eq_of_fresh hc hs, hparams, rfl⟩

/-- Neither a step nor a register write of the host leaves a stop (R12, R16). -/
theorem stop_is_sticky {s t : State} (hs : s.status ≠ .ok)
    (h : step s = .next t ∨ ∃ id v, setRegister id v s = .next t) : t.status = s.status := by
  rcases h with hstep | ⟨id, v, hset⟩
  · cases (step_stopped hs).symm.trans hstep
    rfl
  · obtain ⟨r, rfl⟩ := setRegister_next hset
    rfl

/-- Settles O48: the used window is cleared, the reset state is fresh in the life it belongs to, and a stop is sticky. -/
theorem warmResetRestoresTheCreatedState : Obligations.WarmResetRestoresTheCreatedState :=
  ⟨fun s => ⟨_, rfl, Memory.read_clear s.mem (s.sp + 1) s.sb⟩,
    fun _ _ hc h => h.reset.eq_of_fresh hc (h.inv hc.inv).fresh_warmReset,
    fun _ _ hs h => stop_is_sticky hs h⟩

end Sys2Proof.Machine
end

section
/-! SUPPORT. `wrap32` and congruence modulo 2^32 (00_scope.md's Notation, R100, D4). -/

namespace Sys2Proof.Machine

/-- The signed value of a narrowed integer is its balanced remainder modulo 2^32. -/
theorem toInt_wrap32 (z : Int) : (wrap32 z).toInt = z.bmod (2 ^ 32) := BitVec.toInt_ofInt z

/-- Narrowing does not see a multiple of 2^32. -/
theorem wrap32_add_mul (z k : Int) : wrap32 (z + k * 2 ^ 32) = wrap32 z := by
  rw [← BitVec.toInt_inj, toInt_wrap32, toInt_wrap32]
  exact Int.add_mul_bmod_self_right z k (2 ^ 32)

/-- An integer is the signed value of its narrowing and a multiple of 2^32. -/
theorem eq_toInt_wrap32_add (z : Int) : z = (wrap32 z).toInt + z.bdiv (2 ^ 32) * 2 ^ 32 := by
  rw [toInt_wrap32]
  exact (Int.bmod_add_bdiv' z (2 ^ 32)).symm

/-- Settles O12: the narrowed integer is congruent to `z`, and any cell congruent to `z` is what `z` narrows to. -/
theorem wrapIsTheCongruentInt32 : Obligations.WrapIsTheCongruentInt32 := by
  intro z v
  constructor
  · rintro rfl
    exact ⟨z.bdiv (2 ^ 32), eq_toInt_wrap32_add z⟩
  · rintro ⟨k, rfl⟩
    rw [wrap32_add_mul, wrap32_toInt]

end Sys2Proof.Machine
end
